-- ==== Sys2Proof/Word.lean ====
section
/-! DEFINITION. The two widths of the hardware: a byte is 8 bits, a word is 16 bits (R8). -/

namespace Sys2Proof

/-- A byte: a register, a memory cell, an operand byte (R8). -/
abbrev Byte := BitVec 8

/-- A word: the program counter and every address (R8, R30). -/
abbrev Word := BitVec 16

end Sys2Proof
end

