-- ==== Sys2Proof/Config.lean ====
section
/-! DEFINITION. The types of the implementation parameters of rule R6, each plain data.
A value of `Config` is one choice of every parameter except INIT_MEM, which R6 places in the launch state.
The defaults stand in Machine/Defaults.lean. -/

namespace Sys2Proof

/-- The fourteen kinds of instruction, one per row of the opcode map (R71): the index set of OPC and CYCLES. -/
inductive Op where
  | ldaImm | ldxImm | ldyImm | cmpImm | bneRel | jmpAbs | brk | rti | tsx
  | ldaZp | ldaAbs | ldaAbsX | staZp | staAbs
  deriving DecidableEq, Repr

/-- The seven instruction formats (R75). -/
inductive Format where
  | imp | brk | imm | zp | rel | abs | abx
  deriving DecidableEq, Repr

/-- A table with one value for each kind of instruction: how OPC and CYCLES are held as plain data. -/
structure PerOp (α : Type) where
  ldaImm : α
  ldxImm : α
  ldyImm : α
  cmpImm : α
  bneRel : α
  jmpAbs : α
  brk : α
  rti : α
  tsx : α
  ldaZp : α
  ldaAbs : α
  ldaAbsX : α
  staZp : α
  staAbs : α
  deriving DecidableEq, Repr

/-- One instruction's row of CYCLES, a function of (taken?, page crossed?) written out (R6, R160). -/
structure CycleCost where
  /-- not taken, no page crossed -/
  plain : Nat
  /-- not taken, page crossed -/
  crossed : Nat
  /-- taken, no page crossed -/
  taken : Nat
  /-- taken, page crossed -/
  takenCrossed : Nat
  deriving DecidableEq, Repr

/-- The parameter CYCLES: a row per instruction, and the count of an interrupt entry (R6, R160). -/
structure CycleTable where
  perOp : PerOp CycleCost
  interrupt : Nat
  deriving DecidableEq, Repr

/-- The parameter PROFILE: the machine variant (R6). -/
inductive Profile where
  | iiPlus | iie | iic | iigs
  deriving DecidableEq, Repr

/-- The seven status flags of `P` (R15). -/
structure Status where
  c : Bool
  z : Bool
  i : Bool
  d : Bool
  b : Bool
  v : Bool
  n : Bool
  deriving DecidableEq, Repr

/-- The name of a router-owned flag: the four of R19, and the numbered ones that REGISTRY_EXT may add (R50). -/
inductive RouterFlag where
  | store80 | altchar | banksel | kbdstrobe
  | ext (n : Nat)
  deriving DecidableEq, Repr

/-- The router-owned flags `IO` (R19). `ext` holds the flags REGISTRY_EXT adds (R50), in the canonical form of
Machine/Cells.lean over `false`: by number, rising, only the raised ones listed. -/
structure RouterFlags where
  store80 : Bool
  altchar : Bool
  banksel : Bool
  kbdstrobe : Bool
  ext : List (Nat × Bool)
  deriving DecidableEq, Repr

/-- A Boolean expression over atoms: the form in which a registry entry says a bit ("data-driven", R37).
DESIGN CHOICE (log 18): it is complete for Boolean functions, so it can say any effect on flags that R50 allows. -/
inductive BitExpr (Atom : Type) where
  | lit (b : Bool)
  | atom (x : Atom)
  | not (e : BitExpr Atom)
  | and (e f : BitExpr Atom)
  | or (e f : BitExpr Atom)
  | xor (e f : BitExpr Atom)
  deriving DecidableEq, Repr

/-- What a read effect may look at: a router flag, or a bit of IO_DEFAULT (R50, R47). -/
inductive ReadAtom where
  | flag (f : RouterFlag)
  | defaultBit (k : Fin 8)
  deriving DecidableEq, Repr

/-- The byte a read effect returns: IO_DEFAULT, or eight bits named one by one, bit 7 first. -/
inductive ReadValue where
  | ioDefault
  | bits (b7 b6 b5 b4 b3 b2 b1 b0 : BitExpr ReadAtom)
  deriving DecidableEq, Repr

/-- A defined read effect: the returned byte, and the flags it assigns (R36, R37). -/
structure ReadEffect where
  value : ReadValue
  updates : List (RouterFlag × BitExpr ReadAtom)
  deriving DecidableEq, Repr

/-- A defined write effect: the flags it assigns (R36, R37), from the router's flags alone: the byte written to a soft
switch does not matter (R48, D31), and an entry may read only router-owned state (R50). -/
structure WriteEffect where
  updates : List (RouterFlag × BitExpr RouterFlag)
  deriving DecidableEq, Repr

/-- A registry entry, one constructor per access kind of R37. -/
inductive SwitchEntry where
  /-- kind R: the write effect is the default no-op -/
  | read (r : ReadEffect)
  /-- kind W: the read effect is the default no-op -/
  | write (w : WriteEffect)
  /-- kind R7: bit 7 of the returned byte is the named flag (R47) -/
  | readBit7 (f : RouterFlag)
  /-- kind RW -/
  | readWrite (r : ReadEffect) (w : WriteEffect)
  deriving DecidableEq, Repr

/-- A row of REGISTRY_EXT: an address, its entry, and the profile it is for (`none`: every profile) (R50). -/
structure ExtRow where
  profile : Option Profile
  addr : Word
  entry : SwitchEntry
  deriving DecidableEq, Repr

/-- The implementation parameters of R6. -/
structure Config where
  /-- P_IMPLIED_LOADSTORE -/
  pImpliedLoadStore : Bool
  /-- OPC: the opcode byte of each instruction -/
  opc : PerOp Byte
  /-- P_HW_INTERRUPTS -/
  pHwInterrupts : Bool
  /-- IO_DEFAULT -/
  ioDefault : Byte
  /-- PROFILE -/
  profile : Profile
  /-- REGISTRY_EXT -/
  registryExt : List ExtRow
  /-- RST_A -/
  rstA : Byte
  /-- RST_X -/
  rstX : Byte
  /-- RST_Y -/
  rstY : Byte
  /-- RST_SP -/
  rstSP : Byte
  /-- RST_P -/
  rstP : Status
  /-- RST_IO -/
  rstIO : RouterFlags
  /-- CYCLES -/
  cycles : CycleTable
  deriving DecidableEq, Repr

end Sys2Proof
end

