-- ==== Sys2Proof/Syntax.lean ====
section
/-! DEFINITION. The instructions, one constructor per row of spec/opcode_table.json (R71), with the operands of R72. -/

namespace Sys2Proof

/-- An instruction and its operands (R71, R72). A 16-bit operand is already assembled from its two bytes.
BRK has no operand: its signature byte is skipped and never read (R78). -/
inductive Instr where
  /-- LDA #imm (R90) -/
  | ldaImm (imm : Byte)
  /-- LDX #imm (R91) -/
  | ldxImm (imm : Byte)
  /-- LDY #imm (R92) -/
  | ldyImm (imm : Byte)
  /-- CMP #imm (R100) -/
  | cmpImm (imm : Byte)
  /-- BNE rel (R105) -/
  | bneRel (rel : Byte)
  /-- JMP abs (R106) -/
  | jmpAbs (addr : Word)
  /-- BRK (R110) -/
  | brk
  /-- RTI (R111) -/
  | rti
  /-- TSX (R115) -/
  | tsx
  /-- LDA zp (R93) -/
  | ldaZp (zp : Byte)
  /-- LDA abs (R94) -/
  | ldaAbs (addr : Word)
  /-- LDA abs,X (R95) -/
  | ldaAbsX (base : Word)
  /-- STA zp (R96) -/
  | staZp (zp : Byte)
  /-- STA abs (R97) -/
  | staAbs (addr : Word)
  deriving DecidableEq, Repr

end Sys2Proof
end

