-- ==== Sys2Proof/Machine/OpTable.lean ====
section
/-! DEFINITION. The opcode map of rule R71 as data: the fourteen rows, the format and length of each, which group it
belongs to, and the standard opcode bytes. -/

namespace Sys2Proof

/-- The value of a table at one kind of instruction. -/
def PerOp.get {α : Type} (t : PerOp α) : Op → α
  | .ldaImm => t.ldaImm
  | .ldxImm => t.ldxImm
  | .ldyImm => t.ldyImm
  | .cmpImm => t.cmpImm
  | .bneRel => t.bneRel
  | .jmpAbs => t.jmpAbs
  | .brk => t.brk
  | .rti => t.rti
  | .tsx => t.tsx
  | .ldaZp => t.ldaZp
  | .ldaAbs => t.ldaAbs
  | .ldaAbsX => t.ldaAbsX
  | .staZp => t.staZp
  | .staAbs => t.staAbs

/-- The rows of R71, in its order. -/
def Op.all : List Op :=
  [.ldaImm, .ldxImm, .ldyImm, .cmpImm, .bneRel, .jmpAbs, .brk, .rti, .tsx,
   .ldaZp, .ldaAbs, .ldaAbsX, .staZp, .staAbs]

/-- The kind of an instruction: its row of R71. -/
def Instr.op : Instr → Op
  | .ldaImm _ => .ldaImm
  | .ldxImm _ => .ldxImm
  | .ldyImm _ => .ldyImm
  | .cmpImm _ => .cmpImm
  | .bneRel _ => .bneRel
  | .jmpAbs _ => .jmpAbs
  | .brk => .brk
  | .rti => .rti
  | .tsx => .tsx
  | .ldaZp _ => .ldaZp
  | .ldaAbs _ => .ldaAbs
  | .ldaAbsX _ => .ldaAbsX
  | .staZp _ => .staZp
  | .staAbs _ => .staAbs

/-- The format column of R71. -/
def Op.format : Op → Format
  | .ldaImm => .imm
  | .ldxImm => .imm
  | .ldyImm => .imm
  | .cmpImm => .imm
  | .bneRel => .rel
  | .jmpAbs => .abs
  | .brk => .brk
  | .rti => .imp
  | .tsx => .imp
  | .ldaZp => .zp
  | .ldaAbs => .abs
  | .ldaAbsX => .abx
  | .staZp => .zp
  | .staAbs => .abs

/-- How many operand bytes a format fetches after the opcode (R72): none for BRK, whose signature byte is not read. -/
def Format.operandBytes : Format → Nat
  | .imp => 0
  | .brk => 0
  | .imm => 1
  | .zp => 1
  | .rel => 1
  | .abs => 2
  | .abx => 2

/-- The group column of R71: the five loads and stores the source implies without listing (D1). -/
def Op.implied : Op → Bool
  | .ldaImm | .ldxImm | .ldyImm | .cmpImm | .bneRel | .jmpAbs | .brk | .rti | .tsx => false
  | .ldaZp | .ldaAbs | .ldaAbsX | .staZp | .staAbs => true

/-- Whether the core recognises a row: always, but for the implied rows, which P_IMPLIED_LOADSTORE switches (R71). -/
def Config.recognises (cfg : Config) (op : Op) : Bool :=
  !op.implied || cfg.pImpliedLoadStore

/-- The standard opcode bytes of R71. PRESUMED (log 3): the spec takes them from general knowledge of the 6502. -/
def standardOpc : PerOp Byte where
  ldaImm := 0xA9
  ldxImm := 0xA2
  ldyImm := 0xA0
  cmpImm := 0xC9
  bneRel := 0xD0
  jmpAbs := 0x4C
  brk := 0x00
  rti := 0x40
  tsx := 0xBA
  ldaZp := 0xA5
  ldaAbs := 0xAD
  ldaAbsX := 0xBD
  staZp := 0x85
  staAbs := 0x8D

end Sys2Proof
end

