-- ==== Sys2Proof/Machine/Defaults.lean ====
section
/-! DEFINITION. The default column of rule R6: the value of every parameter in the reset state. -/

namespace Sys2Proof

/-- A row of CYCLES that depends on neither argument. -/
def CycleCost.fixed (n : Nat) : CycleCost :=
  { plain := n, crossed := n, taken := n, takenCrossed := n }

/-- The table of R160. PRESUMED (log 16): published 6502 counts; no rule reads them. -/
def standardCycles : CycleTable where
  perOp :=
    { ldaImm := .fixed 2
      ldxImm := .fixed 2
      ldyImm := .fixed 2
      cmpImm := .fixed 2
      bneRel := { plain := 2, crossed := 2, taken := 3, takenCrossed := 4 }
      jmpAbs := .fixed 3
      brk := .fixed 7
      rti := .fixed 6
      tsx := .fixed 2
      ldaZp := .fixed 3
      ldaAbs := .fixed 4
      ldaAbsX := { plain := 4, crossed := 5, taken := 4, takenCrossed := 5 }
      staZp := .fixed 3
      staAbs := .fixed 4 }
  interrupt := 7

/-- RST_P: I = 1 and every other flag 0 (R6, R23). -/
def defaultRstP : Status :=
  { c := false, z := false, i := true, d := false, b := false, v := false, n := false }

/-- RST_IO: all four flags 0 (R6, R23), and no flag of REGISTRY_EXT raised (log 18). -/
def defaultRstIO : RouterFlags :=
  { store80 := false, altchar := false, banksel := false, kbdstrobe := false, ext := [] }

/-- The default of every parameter (R6). -/
def Config.default : Config where
  pImpliedLoadStore := true
  opc := standardOpc
  pHwInterrupts := false
  ioDefault := 0x00
  profile := .iic
  registryExt := []
  rstA := 0x00
  rstX := 0x00
  rstY := 0x00
  rstSP := 0xFD
  rstP := defaultRstP
  rstIO := defaultRstIO
  cycles := standardCycles

end Sys2Proof
end

