-- ==== Sys2Proof/Machine/Cells.lean ====
section
/-! DEFINITION. Sparse data by key: a list of (key, value) pairs over a blank value that every unlisted key reads as.
The canonical form lists keys strictly rising and no blank value, so that equal contents are equal lists. -/

namespace Sys2Proof.Machine.Cells

variable {α : Type} [DecidableEq α]

/-- The value at a key; a key that is not listed reads as the blank value. -/
def get (blank : α) (cells : List (Nat × α)) (key : Nat) : α :=
  match cells with
  | [] => blank
  | c :: rest => if c.1 = key then c.2 else get blank rest key

/-- The cells without the key. -/
def erase (cells : List (Nat × α)) (key : Nat) : List (Nat × α) :=
  cells.filter (fun c => c.1 ≠ key)

/-- The cells with one more, before the first larger key. -/
def insert (cells : List (Nat × α)) (key : Nat) (v : α) : List (Nat × α) :=
  match cells with
  | [] => [(key, v)]
  | c :: rest => if key < c.1 then (key, v) :: c :: rest else c :: insert rest key v

/-- The cells with the key set to a value; setting the blank value removes the key. -/
def set (blank : α) (cells : List (Nat × α)) (key : Nat) (v : α) : List (Nat × α) :=
  if v = blank then erase cells key else insert (erase cells key) key v

/-- The canonical form. -/
abbrev Canonical (blank : α) (cells : List (Nat × α)) : Prop :=
  cells.Pairwise (fun c d => c.1 < d.1) ∧ ∀ c ∈ cells, c.2 ≠ blank

end Sys2Proof.Machine.Cells
end

