-- ==== Sys2Proof/Machine/Memory.lean ====
section
/-! DEFINITION. `MEM`, the 65536 bytes of plain storage (R20, R30), and the places of the address map (R31). -/

namespace Sys2Proof.Machine

/-- `MEM` as a canonical list of (address, byte) pairs. -/
abbrev Memory := List Host.Cell

/-- What an unlisted address reads as: INIT_MEM's default is all $00 (R6, R151; log 22). -/
def Memory.blank : Byte := 0x00

/-- INIT_MEM at its default: nothing listed (R6, R151; log 22). -/
def Memory.init : Memory := []

/-- `MEM[addr]`, without the router (R8). -/
def Memory.read (m : Memory) (addr : Nat) : Byte := Cells.get Memory.blank m addr

/-- `MEM[addr] <- v`, without the router (R8). -/
def Memory.write (m : Memory) (addr : Nat) (v : Byte) : Memory := Cells.set Memory.blank m addr v

/-- The canonical form: addresses below 65536, strictly rising, no entry equal to what an unlisted address reads as. -/
abbrev Memory.wf (m : Memory) : Prop :=
  Cells.Canonical Memory.blank m ∧ ∀ c ∈ m, c.1 < 65536

/-- The I/O window, $C000-$C0FF (R31, R33). -/
abbrev inWindow (addr : Word) : Prop := 0xC000 ≤ addr.toNat ∧ addr.toNat ≤ 0xC0FF

/-- The vector table, $FFFA-$FFFF (R31, R35). -/
abbrev inVectors (addr : Word) : Prop := 0xFFFA ≤ addr.toNat

/-- The NMI vector (R57). -/
def nmiVector : Word := 0xFFFA

/-- The reset vector (R57). -/
def resetVector : Word := 0xFFFC

/-- The IRQ/BRK vector (R57). -/
def irqVector : Word := 0xFFFE

end Sys2Proof.Machine
end

