-- ==== Sys2Proof/Machine/Router.lean ====
section
/-! DEFINITION. The Soft Switch Registry (R36-R50): the seven fixed entries, REGISTRY_EXT, the default no-op, and
what a read or a write of a window address does to the router's flags. -/

namespace Sys2Proof.Machine

/-- The value of a router flag (R19, R50). -/
def flagOf (io : RouterFlags) : RouterFlag → Bool
  | .store80 => io.store80
  | .altchar => io.altchar
  | .banksel => io.banksel
  | .kbdstrobe => io.kbdstrobe
  | .ext n => Cells.get false io.ext n

/-- The flags with one assigned. -/
def assignFlag (io : RouterFlags) (f : RouterFlag) (b : Bool) : RouterFlags :=
  match f with
  | .store80 => { io with store80 := b }
  | .altchar => { io with altchar := b }
  | .banksel => { io with banksel := b }
  | .kbdstrobe => { io with kbdstrobe := b }
  | .ext n => { io with ext := Cells.set false io.ext n b }

/-- The value of an expression, given the value of its atoms. -/
def evalBit {Atom : Type} (atoms : Atom → Bool) : BitExpr Atom → Bool
  | .lit b => b
  | .atom x => atoms x
  | .not e => !evalBit atoms e
  | .and e f => evalBit atoms e && evalBit atoms f
  | .or e f => evalBit atoms e || evalBit atoms f
  | .xor e f => evalBit atoms e ^^ evalBit atoms f

/-- The value of a read effect's atom: the flags as they stand before the access. -/
def readAtom (ioDefault : Byte) (io : RouterFlags) : ReadAtom → Bool
  | .flag f => flagOf io f
  | .defaultBit k => ioDefault.getLsbD k.val

/-- Assignments made one after another, every right side taken before the first (DESIGN CHOICE, log 18). -/
def assignAll {Atom : Type} (atoms : Atom → Bool) (updates : List (RouterFlag × BitExpr Atom))
    (io : RouterFlags) : RouterFlags :=
  match updates with
  | [] => io
  | u :: rest => assignAll atoms rest (assignFlag io u.1 (evalBit atoms u.2))

/-- Eight bits as a byte, bit 7 first (R8). -/
def byteOfBits (b7 b6 b5 b4 b3 b2 b1 b0 : Bool) : Byte :=
  BitVec.ofBool b7 ++ BitVec.ofBool b6 ++ BitVec.ofBool b5 ++ BitVec.ofBool b4
    ++ BitVec.ofBool b3 ++ BitVec.ofBool b2 ++ BitVec.ofBool b1 ++ BitVec.ofBool b0

/-- The byte a read effect returns, from the flags as they stand before the access. -/
def readValue (ioDefault : Byte) (io : RouterFlags) : ReadValue → Byte
  | .ioDefault => ioDefault
  | .bits b7 b6 b5 b4 b3 b2 b1 b0 =>
    let bit := evalBit (readAtom ioDefault io)
    byteOfBits (bit b7) (bit b6) (bit b5) (bit b4) (bit b3) (bit b2) (bit b1) (bit b0)

/-- `{flag, IO_DEFAULT[6:0]}` (R47). -/
def bit7Value (ioDefault : Byte) (flag : Bool) : Byte :=
  BitVec.ofBool flag ++ ioDefault.extractLsb' 0 7

/-- The seven entries the source defines, in address order (R39-R45). None of them looks at the byte written (R48).
$C073 is accepted and does nothing (R45). -/
def fixedSwitches : List (Word × SwitchEntry) :=
  [(0xC000, .write ⟨[(.store80, .lit false)]⟩),
   (0xC00E, .write ⟨[(.altchar, .lit false)]⟩),
   (0xC00F, .write ⟨[(.altchar, .lit true)]⟩),
   (0xC010, .read ⟨.ioDefault, [(.kbdstrobe, .lit false)]⟩),
   (0xC011, .readBit7 .banksel),
   (0xC01E, .readBit7 .altchar),
   (0xC073, .write ⟨[]⟩)]

/-- The entry of a list of rows at an address. -/
def fixedEntry (rows : List (Word × SwitchEntry)) (addr : Word) : Option SwitchEntry :=
  match rows with
  | [] => none
  | r :: rest => if r.1 = addr then some r.2 else fixedEntry rest addr

/-- The entry of REGISTRY_EXT at an address for a profile: the first row that fits (R50). -/
def extEntry (profile : Profile) (rows : List ExtRow) (addr : Word) : Option SwitchEntry :=
  match rows with
  | [] => none
  | r :: rest =>
    if r.addr = addr ∧ (r.profile = none ∨ r.profile = some profile) then some r.entry
    else extEntry profile rest addr

/-- The registry: a fixed entry, which REGISTRY_EXT cannot redefine, else its entry, else `none` for the default
no-op in both directions (R36, R50). -/
def switchEntry (cfg : Config) (addr : Word) : Option SwitchEntry :=
  match fixedEntry fixedSwitches addr with
  | some e => some e
  | none => extEntry cfg.profile cfg.registryExt addr

/-- `SwitchRead(addr)`: the byte returned and the flags after it (R36-R38, R42-R44, R47, R49). -/
def switchRead (cfg : Config) (io : RouterFlags) (addr : Word) : Byte × RouterFlags :=
  match switchEntry cfg addr with
  | some (.read r) =>
    (readValue cfg.ioDefault io r.value, assignAll (readAtom cfg.ioDefault io) r.updates io)
  | some (.readWrite r _) =>
    (readValue cfg.ioDefault io r.value, assignAll (readAtom cfg.ioDefault io) r.updates io)
  | some (.readBit7 f) => (bit7Value cfg.ioDefault (flagOf io f), io)
  | some (.write _) => (cfg.ioDefault, io)
  | none => (cfg.ioDefault, io)

/-- `SwitchWrite(addr, v)`: the flags after it (R36-R41, R45, R49); the byte does not matter (R48). -/
def switchWrite (cfg : Config) (io : RouterFlags) (addr : Word) (_v : Byte) : RouterFlags :=
  match switchEntry cfg addr with
  | some (.write w) => assignAll (flagOf io) w.updates io
  | some (.readWrite _ w) => assignAll (flagOf io) w.updates io
  | some (.read _) => io
  | some (.readBit7 _) => io
  | none => io

/-- Whether a read of a window address is the condition `UnmappedSoftSwitch` (R38, R123): no read effect defined. -/
def unmappedRead (cfg : Config) (addr : Word) : Bool :=
  match switchEntry cfg addr with
  | some (.read _) => false
  | some (.readWrite _ _) => false
  | some (.readBit7 _) => false
  | some (.write _) => true
  | none => true

/-- Whether a write of a window address is the condition `UnmappedSoftSwitch` (R38, R123): no write effect defined. -/
def unmappedWrite (cfg : Config) (addr : Word) : Bool :=
  match switchEntry cfg addr with
  | some (.write _) => false
  | some (.readWrite _ _) => false
  | some (.read _) => true
  | some (.readBit7 _) => true
  | none => true

end Sys2Proof.Machine
end

