-- ==== Sys2Proof/WellFormed.lean ====
section
/-! DEFINITION. What the spec asks of an instruction and of a choice of parameters. Operand bytes are unconstrained (R76). -/

namespace Sys2Proof

/-- An instruction is well formed where the core recognises its row (R71). -/
def Instr.wf (cfg : Config) (i : Instr) : Bool := cfg.recognises i.op

/-- "The fourteen values are pairwise distinct, so the lookup is a function" (R71). -/
def Config.opcodesDistinct (cfg : Config) : Bool :=
  decide ((Op.all.map cfg.opc.get).Nodup)

/-- Every row of REGISTRY_EXT is for an address of the I/O window (R6, R50). -/
def Config.extInWindow (cfg : Config) : Bool :=
  cfg.registryExt.all (fun r => decide (Machine.inWindow r.addr))

/-- No row of REGISTRY_EXT redefines one of the seven fixed addresses (R6, R50). -/
def Config.extKeepsFixed (cfg : Config) : Bool :=
  cfg.registryExt.all (fun r => (Machine.fixedEntry Machine.fixedSwitches r.addr).isNone)

/-- The flags that RST_IO raises for REGISTRY_EXT are in canonical form (log 18). -/
def Config.rstIOCanonical (cfg : Config) : Bool :=
  decide (Machine.Cells.Canonical false cfg.rstIO.ext)

/-- A choice of parameters that the spec admits (R6, R50, R71). -/
def Config.wf (cfg : Config) : Bool :=
  cfg.opcodesDistinct && cfg.extInWindow && cfg.extKeepsFixed && cfg.rstIOCanonical

end Sys2Proof
end

