-- ==== Sys2Proof/Decode.lean ====
section
/-! DEFINITION. Decoding any bytes to an instruction or a named rejection (R71-R76), and the encoder after it. -/

namespace Sys2Proof

/-- `hi:lo`, a word from its two bytes (R8). -/
def joinBytes (hi lo : Byte) : Word := hi ++ lo

/-- Bits 7 to 0 of a word. -/
def lowByte (w : Word) : Byte := w.extractLsb' 0 8

/-- Bits 15 to 8 of a word. -/
def highByte (w : Word) : Byte := w.extractLsb' 8 8

/-- Why bytes do not decode. -/
inductive Reject where
  /-- there is no byte -/
  | noBytes
  /-- the opcode byte is in no recognised row (R74) -/
  | illegalOpcode (opcode : Byte)
  /-- operand bytes are missing -/
  | truncated (op : Op)
  deriving DecidableEq, Repr

/-- What decoding answers: an instruction and the bytes after it, or a named rejection. -/
inductive Decoded where
  | ok (i : Instr) (rest : List Byte)
  | rejected (why : Reject)
  deriving DecidableEq, Repr

/-- `Decode(opc)`: the row of R71 whose value is the opcode byte, among the rows the core recognises. -/
def decodeOp (cfg : Config) (opcode : Byte) : Option Op :=
  Op.all.find? (fun op => cfg.recognises op && cfg.opc.get op == opcode)

/-- The instruction of a kind with its operand bytes in ascending address order (R72): a format with one operand byte
uses the first, a format with none uses neither, and a 16-bit operand has its low byte first (R52). -/
def Op.build (op : Op) (b1 b2 : Byte) : Instr :=
  match op with
  | .ldaImm => .ldaImm b1
  | .ldxImm => .ldxImm b1
  | .ldyImm => .ldyImm b1
  | .cmpImm => .cmpImm b1
  | .bneRel => .bneRel b1
  | .jmpAbs => .jmpAbs (joinBytes b2 b1)
  | .brk => .brk
  | .rti => .rti
  | .tsx => .tsx
  | .ldaZp => .ldaZp b1
  | .ldaAbs => .ldaAbs (joinBytes b2 b1)
  | .ldaAbsX => .ldaAbsX (joinBytes b2 b1)
  | .staZp => .staZp b1
  | .staAbs => .staAbs (joinBytes b2 b1)

/-- How many bytes the fetch of an instruction reads: 1, 2 or 3 (R73, R75). BRK's signature byte is not among them. -/
def Op.fetchLength (op : Op) : Nat := 1 + op.format.operandBytes

/-- The operand bytes of a kind taken from the bytes after its opcode. -/
def decodeOperands (op : Op) (bytes : List Byte) : Decoded :=
  match op.format.operandBytes, bytes with
  | 0, rest => .ok (op.build 0 0) rest
  | 1, b1 :: rest => .ok (op.build b1 0) rest
  | 2, b1 :: b2 :: rest => .ok (op.build b1 b2) rest
  | _, _ => .rejected (.truncated op)

/-- The instruction at the head of some bytes (R71, R72). -/
def decode (cfg : Config) (bytes : List Byte) : Decoded :=
  match bytes with
  | [] => .rejected .noBytes
  | b :: rest =>
    match decodeOp cfg b with
    | none => .rejected (.illegalOpcode b)
    | some op => decodeOperands op rest

/-- The operand bytes of an instruction, in ascending address order (R72, R75). -/
def Instr.operands : Instr → List Byte
  | .ldaImm imm => [imm]
  | .ldxImm imm => [imm]
  | .ldyImm imm => [imm]
  | .cmpImm imm => [imm]
  | .bneRel rel => [rel]
  | .jmpAbs addr => [lowByte addr, highByte addr]
  | .brk => []
  | .rti => []
  | .tsx => []
  | .ldaZp zp => [zp]
  | .ldaAbs addr => [lowByte addr, highByte addr]
  | .ldaAbsX base => [lowByte base, highByte base]
  | .staZp zp => [zp]
  | .staAbs addr => [lowByte addr, highByte addr]

/-- The bytes of an instruction (R71, R75). `BRK` is its one opcode byte: the signature byte is written separately (R77). -/
def encode (cfg : Config) (i : Instr) : List Byte := cfg.opc.get i.op :: i.operands

/-- The bytes of an opcode-table word, first byte from its low bits, up to the longest instruction. -/
def tableBytes (nbits w : Nat) : List Byte :=
  let v := w % 2 ^ nbits
  [BitVec.ofNat 8 v, BitVec.ofNat 8 (v / 256), BitVec.ofNat 8 (v / 65536)]

/-- The instruction the decoder reads from an opcode-table word, at the default parameters. -/
def decodeTableWord (nbits w : Nat) : Option Instr :=
  match decode Config.default (tableBytes nbits w) with
  | .ok i _ => some i
  | .rejected _ => none

end Sys2Proof
end

