-- ==== Sys2Proof/Machine/State.lean ====
section
/-! DEFINITION. The whole state of the hardware (R10-R24) as plain data, why a step can stop, and the state after reset. -/

namespace Sys2Proof.Machine

/-- The execution status `RUN` (R21). -/
inductive RunStatus where
  | running
  | halted (addr : Word) (opcode : Byte)
  deriving DecidableEq, Repr

/-- The direction of a bus access, as `Notify` reports it (R51). -/
inductive BusDir where
  | read | write
  deriving DecidableEq, Repr

/-- One call of `Notify(dir, addr, v)` (R51). -/
structure BusEvent where
  dir : BusDir
  addr : Word
  byte : Byte
  deriving DecidableEq, Repr

/-- The state of the hardware (R24), and the model's own fields `cfg`, `irq` and `events`. -/
structure State where
  /-- the implementation parameters (R6): fixed for the machine, held here so that "every state" means every choice of
  them (DESIGN CHOICE, log 1) -/
  cfg : Config
  /-- accumulator (R10) -/
  a : Byte
  /-- index register X (R11) -/
  x : Byte
  /-- index register Y (R12) -/
  y : Byte
  /-- stack pointer, an offset from $0100 (R13) -/
  sp : Byte
  /-- program counter (R14) -/
  pc : Word
  /-- status flags (R15) -/
  p : Status
  /-- plain storage (R20) -/
  mem : Memory
  /-- router-owned flags (R19) -/
  io : RouterFlags
  /-- execution status (R21) -/
  run : RunStatus
  /-- NMI asserted and not yet serviced (R22): false throughout where P_HW_INTERRUPTS is false -/
  nmiPending : Bool
  /-- the level of the irq input, driven by the host (R22, R124; DESIGN CHOICE, log 15) -/
  irq : Bool
  /-- the `Notify` calls so far, oldest first (R51; DESIGN CHOICE, log 26) -/
  events : List BusEvent
  deriving DecidableEq, Repr

/-- Why the machine stops. -/
inductive Fault where
  /-- Raised by `step` in a state whose `run` is `halted addr opcode`, and by nothing else: "every later call of `step()`
  makes no bus access, changes no state and returns the same `Fault(IllegalOpcode, a, opc)`" (R121). Safe: the
  hardware never goes on from there; the step that halts is a next state, with the halt recorded in it (log 13). -/
  | illegalOpcode (addr : Word) (opcode : Byte)
  deriving DecidableEq, Repr

/-- Why the model gives an instruction no meaning. -/
inductive Refusal where
  /-- Raised by an arm of `exec` whose instruction has no meaning yet: no arm does. Safe: the run stops. -/
  | notModelled (mnemonic : String)
  deriving DecidableEq, Repr

/-- The state after the reset sequence (R23, R150), given what reset leaves alone: the parameters, `MEM` (R151), the irq
line and the event history. The vector reads are plain (R150). -/
def State.afterReset (cfg : Config) (mem : Memory) (irq : Bool) (events : List BusEvent) : State where
  cfg := cfg
  a := cfg.rstA
  x := cfg.rstX
  y := cfg.rstY
  sp := cfg.rstSP
  pc := joinBytes (mem.read (resetVector + 1).toNat) (mem.read resetVector.toNat)
  p := cfg.rstP
  mem := mem
  io := cfg.rstIO
  run := .running
  nmiPending := false
  irq := irq
  events := events

/-- The machine right after reset: every parameter at its default, INIT_MEM at its default, no image loaded (R6, R23). -/
def State.reset : State := State.afterReset Config.default Memory.init false []

end Sys2Proof.Machine
end

