-- ==== Sys2Proof/Machine/Flags.lean ====
section
/-! DEFINITION. Every flag computation of the spec: N and Z of a byte, the status byte, the compare (R8, R16, R100). -/

namespace Sys2Proof.Machine

/-- `SetNZ(v)` on the flags (R8). -/
def setNZ (p : Status) (v : Byte) : Status :=
  { p with z := decide (v = 0), n := v.getLsbD 7 }

/-- `PackP(b)`: the pushed status byte, bit 5 set and bit 4 forced (R8, R16). The layout is PRESUMED (log 5). -/
def packP (p : Status) (b : Bool) : Byte :=
  byteOfBits p.n p.v true b p.d p.i p.z p.c

/-- `UnpackP(v)`: all seven flags from a pulled byte, bit 5 ignored (R8, R16). The layout is PRESUMED (log 5). -/
def unpackP (v : Byte) : Status where
  c := v.getLsbD 0
  z := v.getLsbD 1
  i := v.getLsbD 2
  d := v.getLsbD 3
  b := v.getLsbD 4
  v := v.getLsbD 6
  n := v.getLsbD 7

/-- The 9-bit sum of the compare, `zext_9(A) + zext_9(~imm8) + 1` (R100). -/
def compareSum (a imm : Byte) : BitVec 9 :=
  a.setWidth 9 + (~~~imm).setWidth 9 + 1

/-- The flags after a compare: C is bit 8 of the sum, Z and N come from its low byte (R100). -/
def compareFlags (p : Status) (a imm : Byte) : Status :=
  let t := compareSum a imm
  let r := t.extractLsb' 0 8
  { p with c := t.getLsbD 8, z := decide (r = 0), n := r.getLsbD 7 }

end Sys2Proof.Machine
end

