-- ==== Sys2Proof/Machine/Operands.lean ====
section
/-! DEFINITION. The operand forms of rule R72: effective addresses and the branch target. -/

namespace Sys2Proof.Machine

/-- Zero-page effective address, `zext_16(zp8)` (R72). -/
def eaZp (zp : Byte) : Word := zp.setWidth 16

/-- Absolute,X effective address, `base +_16 zext_16(X)`: no page wrap (R72). -/
def eaAbsX (base : Word) (x : Byte) : Word := base + x.setWidth 16

/-- Branch target, `PC_after +_16 sext_16(rel8)` (R72). -/
def branchTarget (pcAfter : Word) (rel : Byte) : Word := pcAfter + rel.signExtend 16

/-- The stack location SP designates, `$0100 | zext_16(SP)` (R13). -/
def stackAddr (sp : Byte) : Word := 0x0100 ||| sp.setWidth 16

/-- Whether the index addition of absolute,X crosses a page, `(base[7:0] + X) > $FF` (R160). -/
def indexCrosses (base : Word) (x : Byte) : Bool := decide (255 < (lowByte base).toNat + x.toNat)

/-- Whether two addresses lie on different pages (R160). -/
def otherPage (v w : Word) : Bool := decide (highByte v ≠ highByte w)

end Sys2Proof.Machine
end

