-- ==== Sys2Proof/Machine/Ops.lean ====
section
/-! DEFINITION. The shared operations: the named register updates, the bus through the router, the stack, taking an
exception and returning from one, and the halt. -/

namespace Sys2Proof.Machine

/-! ### Register updates -/

/-- `A <- v`. -/
def State.setA (s : State) (v : Byte) : State := { s with a := v }

/-- `X <- v`. -/
def State.setX (s : State) (v : Byte) : State := { s with x := v }

/-- `Y <- v`. -/
def State.setY (s : State) (v : Byte) : State := { s with y := v }

/-- `SP <- v`. -/
def State.setSP (s : State) (v : Byte) : State := { s with sp := v }

/-- `PC <- w`. -/
def State.setPC (s : State) (w : Word) : State := { s with pc := w }

/-- `P <- p`. -/
def State.setP (s : State) (p : Status) : State := { s with p := p }

/-- `RUN <- r`. -/
def State.setRun (s : State) (r : RunStatus) : State := { s with run := r }

/-- `NMI_PENDING <- b`. -/
def State.setNmiPending (s : State) (b : Bool) : State := { s with nmiPending := b }

/-! ### The bus -/

/-- `MEM[addr]`: plain storage, without the router and without side effect (R8, R34). -/
def State.peek (s : State) (addr : Word) : Byte := s.mem.read addr.toNat

/-- `MEM[addr] <- v`, without the router (R8): what the loader uses (R64). -/
def State.poke (s : State) (addr : Word) (v : Byte) : State :=
  { s with mem := s.mem.write addr.toNat v }

/-- `PlainWrite(addr, v)`: discarded in the vector table (R35). -/
def State.plainWrite (s : State) (addr : Word) (v : Byte) : State :=
  if inVectors addr then s else s.poke addr v

/-- An access in the I/O window: the router's flags after it, and `Notify` after the effect (R33, R51). -/
def State.touchSwitch (s : State) (io : RouterFlags) (e : BusEvent) : State :=
  { s with io := io, events := s.events ++ [e] }

/-- The byte that `MemRead(addr, 1)` returns (R33). -/
def State.readByte (s : State) (addr : Word) : Byte :=
  if inWindow addr then (switchRead s.cfg s.io addr).1 else s.peek addr

/-- The state after `MemRead(addr, 1)`: in the I/O window the switch's read effect and its notice, else no change
(R33, R34). -/
def State.afterRead (s : State) (addr : Word) : State :=
  if inWindow addr then
    s.touchSwitch (switchRead s.cfg s.io addr).2 ⟨.read, addr, s.readByte addr⟩
  else s

/-- `MemWrite(addr, 1, v)` (R33, R35). -/
def State.memWrite (s : State) (addr : Word) (v : Byte) : State :=
  if inWindow addr then
    s.touchSwitch (switchWrite s.cfg s.io addr v) ⟨.write, addr, v⟩
  else s.plainWrite addr v

/-- The word that `Read16(addr)` returns: low byte read first, at the lower address (R8, R52). -/
def State.readWord (s : State) (addr : Word) : Word :=
  joinBytes ((s.afterRead addr).readByte (addr + 1)) (s.readByte addr)

/-- The state after `Read16(addr)`. -/
def State.afterReadWord (s : State) (addr : Word) : State :=
  (s.afterRead addr).afterRead (addr + 1)

/-! ### The stack -/

/-- `Push8(v)`: write, then decrement (R56; the slot is PRESUMED, log 7). -/
def State.push8 (s : State) (v : Byte) : State :=
  let s1 := s.memWrite (stackAddr s.sp) v
  s1.setSP (s1.sp - 1)

/-- The byte that `Pull8()` returns: increment, then read (R56; the slot is PRESUMED, log 7). -/
def State.pulledByte (s : State) : Byte :=
  (s.setSP (s.sp + 1)).readByte (stackAddr (s.sp + 1))

/-- The state after `Pull8()` (R56). -/
def State.afterPull (s : State) : State :=
  (s.setSP (s.sp + 1)).afterRead (stackAddr (s.sp + 1))

/-! ### Taking an exception, returning from one, halting -/

/-- Taking an exception (R110, R127, R128): push PC high byte, PC low byte, then the status byte with the break bit
forced; set I; load PC from the vector. PC already is the address to return to. BRK, IRQ and NMI entry all are this. -/
def State.enterException (s : State) (vector : Word) (breakBit : Bool) : State :=
  let s1 := s.push8 (highByte s.pc)
  let s2 := s1.push8 (lowByte s1.pc)
  let s3 := s2.push8 (packP s2.p breakBit)
  let s4 := s3.setP { s3.p with i := true }
  (s4.afterReadWord vector).setPC (s4.readWord vector)

/-- Returning from an exception (R111, R131): pull the status byte into all seven flags, then PC low byte, then PC high
byte. -/
def State.returnFromException (s : State) : State :=
  let s1 := s.afterPull.setP (unpackP s.pulledByte)
  let s2 := s1.afterPull
  s2.afterPull.setPC (joinBytes s2.pulledByte s1.pulledByte)

/-- `raise IllegalOpcode(addr, opc)`: PC back at the opcode, RUN halted, nothing else (R74, R121). -/
def State.halt (s : State) (addr : Word) (opcode : Byte) : State :=
  (s.setPC addr).setRun (.halted addr opcode)

/-! ### Loads into a register -/

/-- `A <- v; SetNZ(v)` (R90). -/
def State.loadA (s : State) (v : Byte) : State := (s.setA v).setP (setNZ s.p v)

/-- `X <- v; SetNZ(v)` (R91, R115). -/
def State.loadX (s : State) (v : Byte) : State := (s.setX v).setP (setNZ s.p v)

/-- `Y <- v; SetNZ(v)` (R92). -/
def State.loadY (s : State) (v : Byte) : State := (s.setY v).setP (setNZ s.p v)

/-- `v <- MemRead(addr, 1); A <- v; SetNZ(v)` (R93-R95). -/
def State.loadAFrom (s : State) (addr : Word) : State := (s.afterRead addr).loadA (s.readByte addr)

end Sys2Proof.Machine
end

