-- ==== Sys2Proof/Machine/BranchJump.lean ====
section
/-! DEFINITION. Branch and jump (R105, R106). -/

namespace Sys2Proof.Machine

/-- BNE rel: if Z is clear, PC moves by the signed offset from the following instruction (R105). -/
def execBneRel (rel : Byte) (s : State) : Host.Outcome State Fault Refusal :=
  .next (if s.p.z then s else s.setPC (branchTarget s.pc rel))

/-- JMP abs (R106). -/
def execJmpAbs (addr : Word) (s : State) : Host.Outcome State Fault Refusal := .next (s.setPC addr)

end Sys2Proof.Machine
end

