-- ==== Sys2Proof/Machine/BrkRti.lean ====
section
/-! DEFINITION. The software interrupt and the return from interrupt (R110, R111). -/

namespace Sys2Proof.Machine

/-- BRK: PC past the signature byte, then exception entry through $FFFE with the break bit set, whatever I is
(R110, R126). -/
def execBrk (s : State) : Host.Outcome State Fault Refusal :=
  .next ((s.setPC (s.pc + 1)).enterException irqVector true)

/-- RTI (R111). -/
def execRti (s : State) : Host.Outcome State Fault Refusal := .next s.returnFromException

end Sys2Proof.Machine
end

