-- ==== Sys2Proof/Machine/Compare.lean ====
section
/-! DEFINITION. The compare (R100). -/

namespace Sys2Proof.Machine

/-- CMP #imm: C, Z and N of A - imm8; the difference is not stored (R100). -/
def execCmpImm (imm : Byte) (s : State) : Host.Outcome State Fault Refusal :=
  .next (s.setP (compareFlags s.p s.a imm))

end Sys2Proof.Machine
end

