-- ==== Sys2Proof/Machine/LoadStore.lean ====
section
/-! DEFINITION. Loads and stores (R90-R97). Each meaning starts after the fetch, with PC at the following instruction. -/

namespace Sys2Proof.Machine

/-- LDA #imm (R90). -/
def execLdaImm (imm : Byte) (s : State) : Host.Outcome State Fault Refusal := .next (s.loadA imm)

/-- LDX #imm (R91). -/
def execLdxImm (imm : Byte) (s : State) : Host.Outcome State Fault Refusal := .next (s.loadX imm)

/-- LDY #imm (R92). -/
def execLdyImm (imm : Byte) (s : State) : Host.Outcome State Fault Refusal := .next (s.loadY imm)

/-- LDA zp: one read at `zext_16(zp8)` (R93). -/
def execLdaZp (zp : Byte) (s : State) : Host.Outcome State Fault Refusal := .next (s.loadAFrom (eaZp zp))

/-- LDA abs: one read, a soft-switch read in the I/O window (R94). -/
def execLdaAbs (addr : Word) (s : State) : Host.Outcome State Fault Refusal := .next (s.loadAFrom addr)

/-- LDA abs,X: exactly one read, at `base +_16 zext_16(X)` (R95). -/
def execLdaAbsX (base : Word) (s : State) : Host.Outcome State Fault Refusal :=
  .next (s.loadAFrom (eaAbsX base s.x))

/-- STA zp: one write of A, no flag (R96). -/
def execStaZp (zp : Byte) (s : State) : Host.Outcome State Fault Refusal := .next (s.memWrite (eaZp zp) s.a)

/-- STA abs: one write of A, no flag; a soft-switch write in the I/O window, discarded in the vector table (R97). -/
def execStaAbs (addr : Word) (s : State) : Host.Outcome State Fault Refusal := .next (s.memWrite addr s.a)

end Sys2Proof.Machine
end

