-- ==== Sys2Proof/Machine/Transfer.lean ====
section
/-! DEFINITION. The register transfer (R115). -/

namespace Sys2Proof.Machine

/-- TSX: `X <- SP; SetNZ(SP)` (R115). -/
def execTsx (s : State) : Host.Outcome State Fault Refusal := .next (s.loadX s.sp)

end Sys2Proof.Machine
end

