-- ==== Sys2Proof/Machine/Dispatch.lean ====
section
/-! DEFINITION. One arm per instruction, each one direct call of its meaning. -/

namespace Sys2Proof.Machine

/-- The effect of an instruction after its fetch phase (R70 step 6). -/
def exec (i : Instr) (s : State) : Host.Outcome State Fault Refusal :=
  match i with
  | .ldaImm imm => Sys2Proof.Machine.execLdaImm imm s
  | .ldxImm imm => Sys2Proof.Machine.execLdxImm imm s
  | .ldyImm imm => Sys2Proof.Machine.execLdyImm imm s
  | .cmpImm imm => Sys2Proof.Machine.execCmpImm imm s
  | .bneRel rel => Sys2Proof.Machine.execBneRel rel s
  | .jmpAbs addr => Sys2Proof.Machine.execJmpAbs addr s
  | .brk => Sys2Proof.Machine.execBrk s
  | .rti => Sys2Proof.Machine.execRti s
  | .tsx => Sys2Proof.Machine.execTsx s
  | .ldaZp zp => Sys2Proof.Machine.execLdaZp zp s
  | .ldaAbs addr => Sys2Proof.Machine.execLdaAbs addr s
  | .ldaAbsX base => Sys2Proof.Machine.execLdaAbsX base s
  | .staZp zp => Sys2Proof.Machine.execStaZp zp s
  | .staAbs addr => Sys2Proof.Machine.execStaAbs addr s

end Sys2Proof.Machine
end

