-- ==== Sys2Proof/Machine/Fetch.lean ====
section
/-! DEFINITION. The fetch phase of `step()` (R70 steps 3 to 5): every byte is a bus read at PC, and PC advances after it. -/

namespace Sys2Proof.Machine

/-- What the fetch phase answers. -/
inductive Fetched where
  /-- the opcode byte is in no recognised row (R74); the state after its fetch -/
  | illegal (opcode : Byte) (after : State)
  /-- an instruction and the state after its fetch, PC at the following instruction (R73) -/
  | instr (i : Instr) (after : State)
  deriving DecidableEq, Repr

/-- The state after `b <- MemRead(PC,1); PC <- PC +_16 1` (R70, R79); the byte is `s.readByte s.pc`. -/
def State.afterFetch (s : State) : State := (s.afterRead s.pc).setPC (s.pc + 1)

/-- Fetching the operand bytes of a kind of instruction, in ascending address order (R72). -/
def State.fetchOperands (s : State) (op : Op) : Fetched :=
  match op.format.operandBytes with
  | 0 => .instr (op.build 0 0) s
  | 1 => .instr (op.build (s.readByte s.pc) 0) s.afterFetch
  | _ =>
    .instr (op.build (s.readByte s.pc) (s.afterFetch.readByte s.afterFetch.pc)) s.afterFetch.afterFetch

/-- The fetch phase: the opcode byte, and the operand bytes if it is legal (R70). -/
def State.fetch (s : State) : Fetched :=
  match decodeOp s.cfg (s.readByte s.pc) with
  | none => .illegal (s.readByte s.pc) s.afterFetch
  | some op => s.afterFetch.fetchOperands op

end Sys2Proof.Machine
end

