-- ==== Sys2Proof/Machine/Interrupts.lean ====
section
/-! DEFINITION. The hardware interrupts (R124-R130), present only where P_HW_INTERRUPTS is true. -/

namespace Sys2Proof.Machine

/-- The two interrupt inputs (R124). -/
inductive Interrupt where
  | nmi | irq
  deriving DecidableEq, Repr

/-- The interrupt that a step takes at an instruction boundary, if any: NMI before IRQ, IRQ only where I is clear
(R70 step 2, R125, R128-R130). -/
def State.interruptDue (s : State) : Option Interrupt :=
  if s.cfg.pHwInterrupts then
    if s.nmiPending then some .nmi
    else if s.irq && !s.p.i then some .irq
    else none
  else none

/-- Interrupt entry: PC as it stands, break bit clear, no instruction executed; NMI entry clears NMI_PENDING
(R128, R129). -/
def State.takeInterrupt (s : State) : Interrupt → State
  | .nmi => (s.setNmiPending false).enterException nmiVector false
  | .irq => s.enterException irqVector false

end Sys2Proof.Machine
end

