-- ==== Sys2Proof/Machine/HostMoves.lean ====
section
/-! DEFINITION. What the host can do between steps, beside calling `step()` (R157). -/

namespace Sys2Proof.Machine

/-- The bytes of an image written to `MEM` from an address up, bypassing the router (R64). -/
def State.pokeAll (s : State) (image : List Byte) (base : Word) : State :=
  match image with
  | [] => s
  | b :: rest => (s.poke base b).pokeAll rest (base + 1)

/-- `Load(image, base)`: refused (`none`) where the image would run past $FFFF (R64). -/
def State.load (s : State) (image : List Byte) (base : Word) : Option State :=
  if base.toNat + image.length ≤ 65536 then some (s.pokeAll image base) else none

/-- `Reset()`: also the only exit from Halted (R150, R151). -/
def State.hostReset (s : State) : State := State.afterReset s.cfg s.mem s.irq s.events

/-- A key event: `IO.KBDSTROBE <- 1` (R157, D20). -/
def State.keyEvent (s : State) : State := { s with io := { s.io with kbdstrobe := true } }

/-- The host drives the irq line; where P_HW_INTERRUPTS is false the line is tied inactive (R124). -/
def State.driveIrq (s : State) (level : Bool) : State :=
  { s with irq := s.cfg.pHwInterrupts && level }

/-- The host asserts the nmi input, which sets NMI_PENDING; where P_HW_INTERRUPTS is false the input is tied inactive
(R124, R129). -/
def State.assertNmi (s : State) : State :=
  s.setNmiPending (s.nmiPending || s.cfg.pHwInterrupts)

/-- The host's moves of R157 that act on the state, and those that do not. -/
inductive HostMove where
  | load (image : List Byte) (base : Word)
  | reset
  | keyEvent
  | driveIrq (level : Bool)
  | assertNmi
  /-- attach or detach an observer, or read any state: no effect (R51, R157) -/
  | observe
  deriving DecidableEq, Repr

/-- The state after a move of the host; `none` where the move is refused (R64, R157). -/
def State.hostMove (s : State) : HostMove → Option State
  | .load image base => s.load image base
  | .reset => some s.hostReset
  | .keyEvent => some s.keyEvent
  | .driveIrq level => some (s.driveIrq level)
  | .assertNmi => some s.assertNmi
  | .observe => some s

end Sys2Proof.Machine
end

