-- ==== Sys2Proof/Machine/Place.lean ====
section
/-! DEFINITION. Placing the bytes of one instruction where the next step fetches them. -/

namespace Sys2Proof.Machine

/-- Where an instruction of up to three bytes can be placed for the next step to fetch: at PC, or at $0200 where one of
the three addresses lies in the I/O window, whose MEM no fetch reaches (R20; log 28). -/
def placeAddr (pc : Word) : Word :=
  if inWindow pc ∨ inWindow (pc + 1) ∨ inWindow (pc + 2) then 0x0200 else pc

/-- The state with the bytes of an opcode-table word in `MEM` where the next step fetches them, running, and with no
interrupt to take first (log 28). -/
def State.placeWord (s : State) (nbits w : Nat) : State :=
  let loc := placeAddr s.pc
  let s1 := (s.pokeAll (tableBytes nbits w) loc).setPC loc
  { s1 with run := .running, nmiPending := false, irq := false }

end Sys2Proof.Machine
end

