-- ==== Sys2Proof/Machine/Step.lean ====
section
/-! DEFINITION. `step()` (R70), and how the host places one instruction where the next step fetches it. -/

namespace Sys2Proof.Machine

/-- One call of `step()` (R70): a halted machine answers its fault again (R121); else an interrupt that is due is
taken (R128-R130); else the instruction at PC is fetched and executed; an illegal opcode halts (R74, R121). What
`step()` returns to the host beside the state is `stepReport`. -/
def step (s : State) : Host.Outcome State Fault Refusal :=
  match s.run with
  | .halted addr opcode => .fault (.illegalOpcode addr opcode)
  | .running =>
    match s.interruptDue with
    | some k => .next (s.takeInterrupt k)
    | none =>
      match s.fetch with
      | .illegal opcode s1 => .next (s1.halt s.pc opcode)
      | .instr i s1 => exec i s1

/-- The state with an opcode-table word placed where the next step fetches it. -/
def State.withFetchWord (s : State) (nbits w : Nat) : State := s.placeWord nbits w

end Sys2Proof.Machine
end

