-- ==== Sys2Proof/Machine/Report.lean ====
section
/-! DEFINITION. What one call of `step()` returns to the host beside the new state: the cycle count and the status
(R70, R138, R160). It is no part of the state (R135). -/

namespace Sys2Proof.Machine

/-- The status that `step()` returns (R70). -/
inductive StepStatus where
  | normal
  | illegalOpcode (addr : Word) (opcode : Byte)
  deriving DecidableEq, Repr

/-- What `step()` returns: `(cycles, status)` (R70). -/
structure StepReport where
  cycles : Nat
  status : StepStatus
  deriving DecidableEq, Repr

/-- Whether an instruction is a branch that is taken, in the state after its fetch (R105, R160). -/
def branchTaken (i : Instr) (s : State) : Bool :=
  match i with
  | .bneRel _ => !s.p.z
  | .ldaImm _ | .ldxImm _ | .ldyImm _ | .cmpImm _ | .jmpAbs _ | .brk | .rti | .tsx
  | .ldaZp _ | .ldaAbs _ | .ldaAbsX _ | .staZp _ | .staAbs _ => false

/-- Whether an instruction crosses a page in the sense of R160, in the state after its fetch: the index addition of
absolute,X, or a branch target on another page than the following instruction. -/
def pageCrossed (i : Instr) (s : State) : Bool :=
  match i with
  | .ldaAbsX base => indexCrosses base s.x
  | .bneRel rel => !s.p.z && otherPage (branchTarget s.pc rel) s.pc
  | .ldaImm _ | .ldxImm _ | .ldyImm _ | .cmpImm _ | .jmpAbs _ | .brk | .rti | .tsx
  | .ldaZp _ | .ldaAbs _ | .staZp _ | .staAbs _ => false

/-- A row of CYCLES at its two arguments (R6). -/
def costAt (c : CycleCost) (isTaken crosses : Bool) : Nat :=
  match isTaken, crosses with
  | false, false => c.plain
  | false, true => c.crossed
  | true, false => c.taken
  | true, true => c.takenCrossed

/-- `CYCLES(instr, ...)`, in the state after the instruction's fetch (R70, R160). -/
def instrCycles (i : Instr) (s : State) : Nat :=
  costAt (s.cfg.cycles.perOp.get i.op) (branchTaken i s) (pageCrossed i s)

/-- What `step()` returns when called in a state (R70): 0 and the fault for an illegal opcode and for every step while
halted (R121). -/
def stepReport (s : State) : StepReport :=
  match s.run with
  | .halted addr opcode => ⟨0, .illegalOpcode addr opcode⟩
  | .running =>
    match s.interruptDue with
    | some _ => ⟨s.cfg.cycles.interrupt, .normal⟩
    | none =>
      match s.fetch with
      | .illegal opcode _ => ⟨0, .illegalOpcode s.pc opcode⟩
      | .instr i s1 => ⟨instrCycles i s1, .normal⟩

end Sys2Proof.Machine
end

