-- ==== Sys2Proof/Safety.lean ====
section
/-! DEFINITION. The terms that claims about a run are stated in: the state invariant, instructions standing in memory,
the end of a run, and the addresses an instruction stores to. -/

namespace Sys2Proof.Machine

/-- Bytes stand at an address and up, at addresses that a fetch reads from `MEM` (outside the I/O window, R33). -/
def State.holds (s : State) (addr : Word) : List Byte → Prop
  | [] => True
  | b :: rest => ¬ inWindow addr ∧ s.peek addr = b ∧ s.holds (addr + 1) rest

/-- The next step begins with the fetch at PC: running, and no interrupt to take (R70, R130). -/
def State.atInstruction (s : State) : Prop := s.run = .running ∧ s.interruptDue = none

/-- A well-formed instruction's bytes stand at PC and the next step begins with their fetch. -/
def State.aboutToRun (s : State) (i : Instr) : Prop :=
  s.atInstruction ∧ s.cfg.opcodesDistinct = true ∧ i.wf s.cfg = true ∧ s.holds s.pc (encode s.cfg i)

/-- The invariant of the machine: both sparse stores are canonical, the interrupt inputs are inactive where
P_HW_INTERRUPTS is false (R22, R124), and a halted machine stands at the illegal opcode it reports (R121). -/
structure State.Inv (s : State) : Prop where
  memCanonical : s.mem.wf
  extCanonical : Cells.Canonical false s.io.ext
  rstCanonical : Cells.Canonical false s.cfg.rstIO.ext
  inputsTied : s.cfg.pHwInterrupts = false → s.nmiPending = false ∧ s.irq = false
  haltedAtOpcode : ∀ addr opcode, s.run = .halted addr opcode →
    s.pc = addr ∧ decodeOp s.cfg opcode = none

/-- A trap state: a JMP to its own address that the next step executes (R158). -/
def State.trapped (s : State) : Prop :=
  s.atInstruction ∧ s.cfg.opcodesDistinct = true ∧
    s.holds s.pc [s.cfg.opc.jmpAbs, lowByte s.pc, highByte s.pc]

/-- A run that has not ended in the fatal condition (R158: a claim that a program runs correctly excludes Halted). -/
def State.safe (s : State) : Prop := s.run = .running

/-- The addresses at which an instruction writes when executed in a state, in the order of the writes (R96, R97, R110).
A write in the I/O window or the vector table stores nothing in `MEM` (R33, R35). -/
def storeAddrs (i : Instr) (s : State) : List Word :=
  match i with
  | .staZp zp => [eaZp zp]
  | .staAbs addr => [addr]
  | .brk => [stackAddr s.sp, stackAddr (s.sp - 1), stackAddr (s.sp - 2)]
  | .ldaImm _ | .ldxImm _ | .ldyImm _ | .cmpImm _ | .bneRel _ | .jmpAbs _ | .rti | .tsx
  | .ldaZp _ | .ldaAbs _ | .ldaAbsX _ => []

/-- The address in page 1 at an offset, `$01:offset` (R13): the stack location of a stack pointer. -/
def page1 (offset : Byte) : Word := (0x01 : Byte) ++ offset

/-- Two states that differ at most in the bytes of `MEM` under the I/O window. -/
def State.sameButUnderWindow (s t : State) : Prop :=
  t = { s with mem := t.mem } ∧ ∀ addr : Word, ¬ inWindow addr → t.peek addr = s.peek addr

end Sys2Proof.Machine
end

