-- ==== Sys2Proof/Certificates/Slice0/Obligations.lean ====
section
/-! DEFINITION. The statements for the provers. None is about a program. -/

open Sys2Proof Sys2Proof.Machine

/-! ### Encoding -/

/-- R71, R72, R75: decoding the bytes of a well-formed instruction gives it back, with every operand at every value
and for every choice of opcode bytes that are pairwise distinct, and leaves the bytes after it. Rests on decisions
the spec marks as its own: D1 (log 2), D3 (log 4), D32 (log 27). -/
def Obligations.DecodeOfEncodeIsInstruction : Prop :=
  ∀ (cfg : Config) (i : Instr) (rest : List Byte),
    cfg.opcodesDistinct = true → i.wf cfg = true → decode cfg (encode cfg i ++ rest) = .ok i rest

/-- R71, R72, R75: what decodes is well formed, and its encoding is the bytes that were read. Rests on decisions the
spec marks as its own: D1 (log 2), D3 (log 4), D32 (log 27). -/
def Obligations.EncodeOfDecodeIsBytes : Prop :=
  ∀ (cfg : Config) (bytes rest : List Byte) (i : Instr),
    decode cfg bytes = .ok i rest → i.wf cfg = true ∧ encode cfg i ++ rest = bytes

/-- R71: words written out from the spec's encodings decode to the instructions they stand for. Rests on decisions
the spec marks as its own: D1 (log 2), D2 (log 3), D3 (log 4), D32 (log 27). -/
def Obligations.DecoderReadsSpecWords : Prop :=
  decode Config.default [0xA9, 0x42] = .ok (.ldaImm 0x42) [] ∧
  decode Config.default [0xC9, 0x30] = .ok (.cmpImm 0x30) [] ∧
  decode Config.default [0xD0, 0xFE] = .ok (.bneRel 0xFE) [] ∧
  decode Config.default [0x4C, 0x34, 0x12] = .ok (.jmpAbs 0x1234) [] ∧
  decode Config.default [0x00, 0xFF] = .ok .brk [0xFF] ∧
  decode Config.default [0xBA] = .ok .tsx [] ∧
  decode Config.default [0xBD, 0x01, 0x01] = .ok (.ldaAbsX 0x0101) [] ∧
  decode Config.default [0x8D, 0x0F, 0xC0] = .ok (.staAbs 0xC00F) []

/-- R71, R74: at the standard opcode bytes, exactly the fourteen listed values decode; exactly the first nine where
P_IMPLIED_LOADSTORE is false. Rests on decisions the spec marks as its own: D1 (log 2), D2 (log 3). -/
def Obligations.OnlyListedOpcodesDecode : Prop :=
  (∀ b : Byte, decodeOp Config.default b = none ↔
    b ∉ [0xA9, 0xA2, 0xA0, 0xC9, 0xD0, 0x4C, 0x00, 0x40, 0xBA, 0xA5, 0xAD, 0xBD, 0x85, 0x8D]) ∧
  (∀ b : Byte, decodeOp { Config.default with pImpliedLoadStore := false } b = none ↔
    b ∉ [0xA9, 0xA2, 0xA0, 0xC9, 0xD0, 0x4C, 0x00, 0x40, 0xBA])

/-! ### The step -/

/-- R70, R72, R73, R79: where the bytes at PC (outside the I/O window) decode to an instruction, the step is its
execution with PC moved past the bytes fetched, modulo 2^16. Rests on decisions the spec marks as its own: D3 (log
4), D8 (log 8), D32 (log 27). -/
def Obligations.StepRunsDecodedInstruction : Prop :=
  ∀ (s : State) (i : Instr) (bytes : List Byte),
    s.atInstruction → decode s.cfg bytes = .ok i [] → s.holds s.pc bytes →
    step s = exec i (s.setPC (s.pc + BitVec.ofNat 16 i.op.fetchLength))

/-- R32, R70, R72: every byte of the fetch is a bus read through the router, with its side effect wherever the byte
lies, the I/O window included; the operand bytes are fetched in ascending address order, and only those of the
format. Rests on decisions the spec marks as its own: D8 (log 8), D9 (log 9), D11 (log 10), D32 (log 27). -/
def Obligations.FetchGoesThroughRouter : Prop :=
  ∀ (s : State) (op : Op), s.atInstruction → decodeOp s.cfg (s.readByte s.pc) = some op →
    let s1 := (s.afterRead s.pc).setPC (s.pc + 1)
    let s2 := (s1.afterRead (s.pc + 1)).setPC (s.pc + 2)
    let s3 := (s2.afterRead (s.pc + 2)).setPC (s.pc + 3)
    (op.fetchLength = 1 → step s = exec (op.build 0 0) s1) ∧
    (op.fetchLength = 2 → step s = exec (op.build (s1.readByte (s.pc + 1)) 0) s2) ∧
    (op.fetchLength = 3 →
      step s = exec (op.build (s1.readByte (s.pc + 1)) (s2.readByte (s.pc + 2))) s3)

/-- R121: an illegal opcode leaves PC at the opcode, sets RUN to Halted with address and opcode, changes nothing else
but what the fetch itself did in the I/O window, and is reported with 0 cycles; from then on every step answers the
same fault and report, no host move but a reset leaves Halted, and a reset does. Rests on decisions the spec marks as
its own: D9 (log 9), D14 (log 13). -/
def Obligations.IllegalOpcodeHalts : Prop :=
  (∀ s : State, s.atInstruction → decodeOp s.cfg (s.readByte s.pc) = none →
    step s = .next { s.afterRead s.pc with pc := s.pc, run := .halted s.pc (s.readByte s.pc) } ∧
    (¬ inWindow s.pc → s.afterRead s.pc = s) ∧
    stepReport s = ⟨0, .illegalOpcode s.pc (s.readByte s.pc)⟩) ∧
  (∀ (s : State) (addr : Word) (opcode : Byte), s.run = .halted addr opcode →
    step s = .fault (.illegalOpcode addr opcode) ∧
    stepReport s = ⟨0, .illegalOpcode addr opcode⟩ ∧
    s.hostReset.run = .running ∧
    ∀ (m : HostMove) (t : State), s.hostMove m = some t → m ≠ .reset → t.run = .halted addr opcode)

/-- R140, R66: a running machine always has a next state; it still is running, except after a step that decodes an
illegal opcode, which sets Halted; no step leaves Halted; reset sets Running. Rests on decisions the spec marks as its
own: D14 (log 13, whose form, a next state for the step that halts and none from a halted machine, is the model's), D9
(log 9, the opcode byte is a bus read in the I/O window too), D16 (log 15, the interrupt that may come first). -/
def Obligations.RunStateMachine : Prop :=
  (∀ s : State, s.run = .running → ∃ t, step s = .next t ∧
    (t.run = .running ∨
      (s.interruptDue = none ∧ decodeOp s.cfg (s.readByte s.pc) = none ∧
        t.run = .halted s.pc (s.readByte s.pc))) ∧
    ((s.interruptDue = none ∧ decodeOp s.cfg (s.readByte s.pc) = none) →
      t.run = .halted s.pc (s.readByte s.pc))) ∧
  (∀ s t : State, step s = .next t → s.run = .running) ∧
  (∀ s : State, s.hostReset.run = .running)

/-- R66: no bus access halts or stops the machine, every instruction completes in every state and leaves RUN as it is,
and the only fatal condition is an illegal opcode, raised where an opcode is decoded: a step that halts decoded one, a
step that faults is of a halted machine, and no step is refused. That the step which halts is a next state, and only the
later steps answer the fault, is the model's choice (log 13, with D14); the status which the halting call of `step()`
returns (R70) is stepReport, in IllegalOpcodeHalts. -/
def Obligations.OnlyIllegalOpcodeIsFatal : Prop :=
  (∀ (s : State) (addr : Word) (v : Byte),
    (s.afterRead addr).run = s.run ∧ (s.memWrite addr v).run = s.run) ∧
  (∀ (i : Instr) (s : State), ∃ t, exec i s = .next t ∧ t.run = s.run) ∧
  (∀ s t : State, step s = .next t → t.run ≠ .running →
    s.interruptDue = none ∧ decodeOp s.cfg (s.readByte s.pc) = none) ∧
  (∀ (s : State) (f : Fault), step s = .fault f →
    ∃ addr opcode, f = .illegalOpcode addr opcode ∧ s.run = .halted addr opcode) ∧
  (∀ (s : State) (r : Refusal), step s ≠ .refused r)

/-- R158, R106: in a trap state the step is the identity on the whole state and returns Normal, for ever. Rests on
decisions the spec marks as its own: D3 (log 4), D25 (log 23). -/
def Obligations.TrapStateIsFixed : Prop :=
  ∀ s : State, s.trapped →
    step s = .next s ∧ (stepReport s).status = .normal ∧ ∀ k : Nat, core.run k s = .next s

/-! ### The instructions: encoding, effect, and the whole step -/

/-- R90, R91, R92: an immediate load sets its register, Z and N from the byte, and PC to the next instruction. Rests
on decisions the spec marks as its own: D2 (log 3), D8 (log 8), D26 (log 24). -/
def Obligations.ImmediateLoads : Prop :=
  ∀ imm : Byte,
    encode Config.default (.ldaImm imm) = [0xA9, imm] ∧
    encode Config.default (.ldxImm imm) = [0xA2, imm] ∧
    encode Config.default (.ldyImm imm) = [0xA0, imm] ∧
    ∀ s : State,
      let p : Status := { s.p with z := decide (imm = 0), n := imm.getLsbD 7 }
      exec (.ldaImm imm) s = .next { s with a := imm, p := p } ∧
      exec (.ldxImm imm) s = .next { s with x := imm, p := p } ∧
      exec (.ldyImm imm) s = .next { s with y := imm, p := p } ∧
      (s.aboutToRun (.ldaImm imm) → step s = .next { s with a := imm, p := p, pc := s.pc + 2 }) ∧
      (s.aboutToRun (.ldxImm imm) → step s = .next { s with x := imm, p := p, pc := s.pc + 2 }) ∧
      (s.aboutToRun (.ldyImm imm) → step s = .next { s with y := imm, p := p, pc := s.pc + 2 })

/-- R93, R94, R95: a load from memory makes exactly one bus read at its effective address, and sets A, Z and N from
the byte it returns: the byte of MEM, or in the I/O window the byte of the switch, whose read effect happens once.
Rests on decisions the spec marks as its own: D1 (log 2), D2 (log 3), D3 (log 4), D10 (log 10), D26 (log 24). -/
def Obligations.MemoryLoads : Prop :=
  let loaded := fun (s : State) (ea : Word) =>
    { s.afterRead ea with
      a := s.readByte ea
      p := { s.p with z := decide (s.readByte ea = 0), n := (s.readByte ea).getLsbD 7 } }
  (∀ (s : State) (ea : Word),
    (¬ inWindow ea → loaded s ea = { s with
      a := s.peek ea, p := { s.p with z := decide (s.peek ea = 0), n := (s.peek ea).getLsbD 7 } }) ∧
    (inWindow ea → let r := switchRead s.cfg s.io ea
      loaded s ea = { s with
        a := r.1, p := { s.p with z := decide (r.1 = 0), n := r.1.getLsbD 7 }
        io := r.2, events := s.events ++ [⟨.read, ea, r.1⟩] })) ∧
  (∀ zp : Byte, encode Config.default (.ldaZp zp) = [0xA5, zp]) ∧
  (∀ hi lo : Byte, encode Config.default (.ldaAbs (hi ++ lo)) = [0xAD, lo, hi] ∧
    encode Config.default (.ldaAbsX (hi ++ lo)) = [0xBD, lo, hi]) ∧
  (∀ (s : State) (zp : Byte), let ea : Word := (0 : Byte) ++ zp
    exec (.ldaZp zp) s = .next (loaded s ea) ∧ ¬ inWindow ea ∧
    (s.aboutToRun (.ldaZp zp) → step s = .next { loaded s ea with pc := s.pc + 2 })) ∧
  (∀ (s : State) (addr : Word), exec (.ldaAbs addr) s = .next (loaded s addr) ∧
    (s.aboutToRun (.ldaAbs addr) → step s = .next { loaded s addr with pc := s.pc + 3 })) ∧
  (∀ (s : State) (base : Word), let ea : Word := BitVec.ofNat 16 (base.toNat + s.x.toNat)
    exec (.ldaAbsX base) s = .next (loaded s ea) ∧
    (s.aboutToRun (.ldaAbsX base) → step s = .next { loaded s ea with pc := s.pc + 3 }))

/-- R96, R97: a store makes one bus write of A at its effective address and changes no register and no flag. In plain
memory the byte is then A; in the I/O window the effect does not store in MEM; in the vector table the write is
discarded. Rests on decisions the spec marks as its own: D1 (log 2), D2 (log 3), D3 (log 4), D12 (log 11), D13 (log
12), D26 (log 24). -/
def Obligations.Stores : Prop :=
  (∀ zp : Byte, encode Config.default (.staZp zp) = [0x85, zp]) ∧
  (∀ hi lo : Byte, encode Config.default (.staAbs (hi ++ lo)) = [0x8D, lo, hi]) ∧
  (∀ (s : State) (zp : Byte), let ea : Word := (0 : Byte) ++ zp
    exec (.staZp zp) s = .next (s.poke ea s.a) ∧
    (s.aboutToRun (.staZp zp) → step s = .next { s.poke ea s.a with pc := s.pc + 2 })) ∧
  (∀ (s : State) (addr : Word),
    exec (.staAbs addr) s = .next (s.memWrite addr s.a) ∧
    (s.aboutToRun (.staAbs addr) → step s = .next { s.memWrite addr s.a with pc := s.pc + 3 }) ∧
    (¬ inWindow addr → ¬ inVectors addr → s.memWrite addr s.a = s.poke addr s.a) ∧
    (inVectors addr → s.memWrite addr s.a = s) ∧
    (inWindow addr → s.memWrite addr s.a = { s with
      io := switchWrite s.cfg s.io addr s.a
      events := s.events ++ [⟨.write, addr, s.a⟩] }))

/-- R100: CMP sets C exactly when A is at least the byte as unsigned numbers, Z exactly when they are equal, N to bit
7 of the difference modulo 2^8, and changes nothing else. Rests on decisions the spec marks as its own: D2 (log 3),
D26 (log 24). -/
def Obligations.CompareImmediate : Prop :=
  ∀ imm : Byte,
    encode Config.default (.cmpImm imm) = [0xC9, imm] ∧
    ∀ s : State,
      let p : Status := { s.p with
        c := decide (imm.toNat ≤ s.a.toNat), z := decide (s.a = imm), n := (s.a - imm).getLsbD 7 }
      exec (.cmpImm imm) s = .next { s with p := p } ∧
      (s.aboutToRun (.cmpImm imm) → step s = .next { s with p := p, pc := s.pc + 2 })

/-- R105: BNE moves PC by the signed offset, relative to the following instruction and modulo 2^16, exactly when Z is
clear, and changes nothing else. Its opcode byte is the parameter OPC, whatever that is (its default, $D0, is in
DecoderReadsSpecWords). Rests on decisions the spec marks as its own: D8 (log 8, the wrap), D26 (log 24, BNE sets no
flag). -/
def Obligations.BranchNotEqual : Prop :=
  ∀ rel : Byte,
    (∀ cfg : Config, encode cfg (.bneRel rel) = [cfg.opc.bneRel, rel]) ∧
    ∀ s : State,
      (s.p.z = false → exec (.bneRel rel) s = .next { s with
        pc := BitVec.ofInt 16 (s.pc.toNat + rel.toInt) }) ∧
      (s.p.z = true → exec (.bneRel rel) s = .next s) ∧
      (s.aboutToRun (.bneRel rel) → step s = .next { s with
        pc := if s.p.z then s.pc + 2 else BitVec.ofInt 16 (s.pc.toNat + 2 + rel.toInt) })

/-- R106: JMP sets PC to its operand, low byte first, and changes nothing else; a jump to its own opcode leaves the
whole state as it is. Rests on decisions the spec marks as its own: D2 (log 3), D3 (log 4). -/
def Obligations.JumpAbsolute : Prop :=
  (∀ hi lo : Byte, encode Config.default (.jmpAbs (hi ++ lo)) = [0x4C, lo, hi]) ∧
  (∀ (s : State) (addr : Word),
    exec (.jmpAbs addr) s = .next { s with pc := addr } ∧
    (s.aboutToRun (.jmpAbs addr) → step s = .next { s with pc := addr })) ∧
  (∀ s : State, s.aboutToRun (.jmpAbs s.pc) → step s = .next s)

/-- R110: BRK at `a` stores the high byte of `a + 2`, its low byte and the status byte with bits 4 and 5 set (built
from the flags before I is set) at the three stack locations from SP down, wrapping in page 1, subtracts 3 from SP,
sets I, and loads PC from $FFFE/$FFFF; whatever I and the signature byte are. Nothing else changes. Rests on
decisions the spec marks as its own: D2 (log 3), D3 (log 4), D4 (log 5), D5 (log 6), D6 (log 7), D10/D11 (log 10),
D23 (log 21). -/
def Obligations.BreakEntersHandler : Prop :=
  encode Config.default .brk = [0x00] ∧
  ∀ s : State,
    let entered := fun (ret : Word) (t : State) =>
      t = { s with
        mem := t.mem
        sp := s.sp - 3
        p := { s.p with i := true }
        pc := s.peek 0xFFFF ++ s.peek 0xFFFE } ∧
      t.peek (page1 s.sp) = ret.extractLsb' 8 8 ∧
      t.peek (page1 (s.sp - 1)) = ret.extractLsb' 0 8 ∧
      t.peek (page1 (s.sp - 2)) = byteOfBits s.p.n s.p.v true true s.p.d s.p.i s.p.z s.p.c ∧
      ∀ addr : Word, addr ∉ [page1 s.sp, page1 (s.sp - 1), page1 (s.sp - 2)] →
        t.peek addr = s.peek addr
    (∃ t, exec .brk s = .next t ∧ entered (s.pc + 1) t) ∧
    (s.aboutToRun .brk → ∃ t, step s = .next t ∧ entered (s.pc + 2) t)

/-- R111: RTI loads all seven flags from the byte above SP (bit 5 ignored), then PC low byte, then PC high byte, with
SP wrapping in page 1 and raised by 3. Nothing else changes, and memory not at all. Rests on decisions the spec marks
as its own: D2 (log 3), D4 (log 5), D5 (log 6), D6/D7 (log 7), D10 (log 10). -/
def Obligations.ReturnFromInterrupt : Prop :=
  encode Config.default .rti = [0x40] ∧
  ∀ s : State,
    let v := s.peek (page1 (s.sp + 1))
    let t : State := { s with
      p := { n := v.getLsbD 7, v := v.getLsbD 6, b := v.getLsbD 4, d := v.getLsbD 3
             i := v.getLsbD 2, z := v.getLsbD 1, c := v.getLsbD 0 }
      sp := s.sp + 3
      pc := s.peek (page1 (s.sp + 3)) ++ s.peek (page1 (s.sp + 2)) }
    exec .rti s = .next t ∧ (s.aboutToRun .rti → step s = .next t)

/-- R10, R11: A is written by the LDA instructions alone and read by CMP and STA alone, X is written by LDX and TSX alone
and read by LDA abs,X alone: the effect of an instruction that is not listed as reading a register does not depend on
it, and each that is listed does depend on it in some state. Each of the two can hold every byte. -/
def Obligations.AAndXTouchedOnlyAsListed : Prop :=
  (∀ (v : Byte) (s : State),
    (∃ t, exec (.ldaImm v) s = .next t ∧ t.a = v) ∧ ∃ t, exec (.ldxImm v) s = .next t ∧ t.x = v) ∧
  (∀ (i : Instr) (s t : State), exec i s = .next t →
    (i.op ∉ [.ldaImm, .ldaZp, .ldaAbs, .ldaAbsX] → t.a = s.a) ∧
    (i.op ∉ [.ldxImm, .tsx] → t.x = s.x) ∧
    (i.op ∉ [.cmpImm, .staZp, .staAbs] →
      ∀ v : Byte, ∃ v', exec i { s with a := v } = .next { t with a := v' }) ∧
    (i.op ≠ .ldaAbsX → ∀ v : Byte, ∃ v', exec i { s with x := v } = .next { t with x := v' })) ∧
  (∀ op : Op, op ∈ [.cmpImm, .staZp, .staAbs] →
    ∃ (i : Instr) (s t : State) (v : Byte), i.op = op ∧ exec i s = .next t ∧
      ∀ v', exec i { s with a := v } ≠ .next { t with a := v' }) ∧
  ∃ (i : Instr) (s t : State) (v : Byte), i.op = .ldaAbsX ∧ exec i s = .next t ∧
    ∀ v', exec i { s with x := v } ≠ .next { t with x := v' }

/-- R12: Y is written by LDY immediate and by no other instruction, and nothing of the machine but Y itself depends on
it: two states that differ in Y alone step to states that differ in Y alone, or stop alike. -/
def Obligations.YIsNeverRead : Prop :=
  (∀ (imm : Byte) (s : State), ∃ t, exec (.ldyImm imm) s = .next t ∧ t.y = imm) ∧
  (∀ (i : Instr) (s t : State), exec i s = .next t → (∀ imm, i ≠ .ldyImm imm) → t.y = s.y) ∧
  (∀ (s t : State) (y : Byte), step s = .next t → ∃ y', step { s with y := y } = .next { t with y := y' }) ∧
  (∀ (s : State) (y : Byte) (f : Fault), step s = .fault f → step { s with y := y } = .fault f)

/-- R115: TSX copies SP to X and sets Z and N from it, and changes nothing else. Rests on decisions the spec marks as
its own: D2 (log 3), D26 (log 24). -/
def Obligations.TransferStackPointerToX : Prop :=
  encode Config.default .tsx = [0xBA] ∧
  ∀ s : State,
    let p : Status := { s.p with z := decide (s.sp = 0), n := s.sp.getLsbD 7 }
    exec .tsx s = .next { s with x := s.sp, p := p } ∧
    (s.aboutToRun .tsx → step s = .next { s with x := s.sp, p := p, pc := s.pc + 1 })

/-- R112: BRK followed immediately by RTI returns to the instruction after BRK with SP, A, X, Y and every flag but B
as before, B set, the router and its history unchanged, and MEM changed at most at the three stack locations. Rests
on decisions the spec marks as its own: D3 (log 4), D5 (log 6), D6/D7 (log 7), D10 (log 10). -/
def Obligations.BrkThenRtiReturns : Prop :=
  ∀ s : State, s.aboutToRun .brk →
    let slots : List Word := [page1 s.sp, page1 (s.sp - 1), page1 (s.sp - 2)]
    let h : Word := s.peek 0xFFFF ++ s.peek 0xFFFE
    ¬ inWindow h → h ∉ slots → s.peek h = s.cfg.opc.rti →
    ∃ t u, step s = .next t ∧ step t = .next u ∧
      u = { s with mem := u.mem, pc := s.pc + 2, p := { s.p with b := true } } ∧
      ∀ addr : Word, addr ∉ slots → u.peek addr = s.peek addr

/-! ### Frames -/

/-- R54, R96, R97, R110: executing an instruction leaves every byte of MEM as it was, except those at the addresses
the instruction stores to; an instruction that stores nothing leaves all of MEM. Rests on decisions the spec marks as
its own: D1 (log 2), D10 (log 10), D12 (log 11). -/
def Obligations.MemoryFrame : Prop :=
  ∀ (i : Instr) (s t : State), exec i s = .next t →
    ∀ addr : Word, addr ∉ storeAddrs i s → t.peek addr = s.peek addr

/-- R17: each flag changes only by the instructions that R17 lists as writing it. Rests on decisions the spec marks
as its own: D5 (log 6), D23 (log 21), D26 (log 24). -/
def Obligations.FlagsChangeOnlyAsListed : Prop :=
  ∀ (i : Instr) (s t : State), exec i s = .next t →
    (t.p.c ≠ s.p.c → i.op ∈ [.cmpImm, .rti]) ∧
    (t.p.z ≠ s.p.z ∨ t.p.n ≠ s.p.n →
      i.op ∈ [.ldaImm, .ldxImm, .ldyImm, .ldaZp, .ldaAbs, .ldaAbsX, .tsx, .cmpImm, .rti]) ∧
    (t.p.i ≠ s.p.i → i.op ∈ [.brk, .rti]) ∧
    (t.p.d ≠ s.p.d ∨ t.p.b ≠ s.p.b ∨ t.p.v ≠ s.p.v → i.op = .rti)

/-- R10, R11, R12, R13: A is written only by the LDA instructions, X only by LDX and TSX, Y only by LDY; SP moves by
-3 in BRK and by +3 in RTI and not otherwise. Rests on decisions the spec marks as its own: D1 (log 2), D7 (log 7). -/
def Obligations.RegistersChangeOnlyAsListed : Prop :=
  ∀ (i : Instr) (s t : State), exec i s = .next t →
    (t.a ≠ s.a → i.op ∈ [.ldaImm, .ldaZp, .ldaAbs, .ldaAbsX]) ∧
    (t.x ≠ s.x → i.op ∈ [.ldxImm, .tsx]) ∧
    (t.y ≠ s.y → i.op = .ldyImm) ∧
    (i.op = .brk → t.sp = s.sp - 3) ∧
    (i.op = .rti → t.sp = s.sp + 3) ∧
    (i.op ≠ .brk → i.op ≠ .rti → t.sp = s.sp)

/-- Frame of every instruction on the rest of the state: RUN, the interrupt inputs and the parameters never change;
the router's flags and the history of notices change only in a load or store whose address is in the I/O window (R54,
R55); PC only in BNE, JMP, BRK and RTI (R73). The parameters and the irq level in the state are log 1 and log 15.
Rests on decisions the spec marks as its own: D1 (log 2), D9 (log 9), D10 (log 10). -/
def Obligations.ControlStateFrame : Prop :=
  ∀ (i : Instr) (s t : State), exec i s = .next t →
    t.run = s.run ∧ t.nmiPending = s.nmiPending ∧ t.irq = s.irq ∧ t.cfg = s.cfg ∧
    (t.pc ≠ s.pc → i.op ∈ [.bneRel, .jmpAbs, .brk, .rti]) ∧
    (t.io ≠ s.io ∨ t.events ≠ s.events →
      (∃ addr, i = .ldaAbs addr ∧ inWindow addr) ∨
      (∃ base, i = .ldaAbsX base ∧ inWindow (eaAbsX base s.x)) ∨
      (∃ addr, i = .staAbs addr ∧ inWindow addr))

/-! ### The memory system and the router -/

/-- R34, R35: a read outside the window returns the byte of MEM and changes nothing; a write outside the window is
discarded at $FFFA-$FFFF and stores its byte everywhere else. Rests on decisions the spec marks as its own: D12 (log
11), D13 (log 12). -/
def Obligations.PlainMemoryAccess : Prop :=
  ∀ (s : State) (addr : Word), ¬ inWindow addr →
    s.readByte addr = s.peek addr ∧ s.afterRead addr = s ∧
    ∀ v : Byte,
      (0xFFFA ≤ addr.toNat → s.memWrite addr v = s) ∧
      (addr.toNat < 0xFFFA → s.memWrite addr v = s.poke addr v ∧
        (s.poke addr v).peek addr = v ∧
        ∀ other : Word, other ≠ addr → (s.poke addr v).peek other = s.peek other)

/-- R40, R41, R44: for every byte written and every choice of parameters, a write of $C00E clears ALTCHAR and a write of
$C00F sets it, a read of either returns IO_DEFAULT and changes no flag; a read of $C01E returns ALTCHAR in bit 7 over the
low bits of IO_DEFAULT and changes no flag, and a write of it changes no flag. Nothing else of the state changes but the
history of notices. Rests on decisions the spec marks as its own: D18 (log 17, the value IO_DEFAULT), D28 (log 25, the
direction a switch does not define), D29 (log 26, the notice). -/
def Obligations.AltCharSwitches : Prop :=
  ∀ (s : State) (v : Byte),
    let wrote := fun (addr : Word) (io : RouterFlags) =>
      s.memWrite addr v = { s with io := io, events := s.events ++ [⟨.write, addr, v⟩] }
    let readAs := fun (addr : Word) (r : Byte) =>
      s.readByte addr = r ∧ s.afterRead addr = { s with events := s.events ++ [⟨.read, addr, r⟩] }
    wrote 0xC00E { s.io with altchar := false } ∧
    wrote 0xC00F { s.io with altchar := true } ∧
    wrote 0xC01E s.io ∧
    readAs 0xC00E s.cfg.ioDefault ∧
    readAs 0xC00F s.cfg.ioDefault ∧
    readAs 0xC01E (BitVec.ofBool s.io.altchar ++ s.cfg.ioDefault.extractLsb' 0 7)

/-- R39, R45, R48: a write of $C000 clears STORE80, a write of $C073 is accepted and changes no flag; MEM and the CPU
registers never change; a read of either returns IO_DEFAULT and changes no flag. The byte written to an address of the
window does not matter, whatever REGISTRY_EXT holds: only the notice records it. With REGISTRY_EXT empty no switch sets
STORE80. Rests on decisions the spec marks as its own: D18 (log 17), D21/D22 (log 20), D28/D31 (log 25), D19 (log 18),
D29 (log 26). -/
def Obligations.WriteSwitches : Prop :=
  (∀ (s : State) (v : Byte),
    let wrote := fun (addr : Word) (io : RouterFlags) =>
      s.memWrite addr v = { s with io := io, events := s.events ++ [⟨.write, addr, v⟩] }
    wrote 0xC000 { s.io with store80 := false } ∧
    wrote 0xC073 s.io) ∧
  (∀ (s : State) (addr : Word), addr ∈ [0xC000, 0xC073] →
    s.readByte addr = s.cfg.ioDefault ∧ (s.afterRead addr).io = s.io) ∧
  (∀ (s : State) (addr : Word) (v w : Byte), inWindow addr →
    s.memWrite addr w = { s.memWrite addr v with events := s.events ++ [⟨.write, addr, w⟩] }) ∧
  (∀ (cfg : Config) (io : RouterFlags) (addr : Word) (v : Byte), cfg.registryExt = [] →
    ((switchWrite cfg io addr v).store80 = true → io.store80 = true) ∧
    (switchRead cfg io addr).2.store80 = io.store80)

/-- R42, R43: for every choice of parameters $C010 clears the strobe and returns IO_DEFAULT, and a second read
changes no flag any more; $C011 returns BANKSEL in bit 7 over the low bits of IO_DEFAULT and changes no flag. A write
of either changes no flag. With REGISTRY_EXT empty no switch writes BANKSEL. Rests on decisions the spec marks as its
own: D18 (log 17), D20 (log 19), D21 (log 20), D28 (log 25). -/
def Obligations.ReadSwitches : Prop :=
  (∀ s : State,
    let d := s.cfg.ioDefault
    let noticed := fun (addr : Word) (io : RouterFlags) (v : Byte) =>
      s.readByte addr = v ∧
      s.afterRead addr = { s with io := io, events := s.events ++ [⟨.read, addr, v⟩] }
    noticed 0xC010 { s.io with kbdstrobe := false } d ∧
    ((s.afterRead 0xC010).afterRead 0xC010).io = (s.afterRead 0xC010).io ∧
    noticed 0xC011 s.io (BitVec.ofBool s.io.banksel ++ d.extractLsb' 0 7)) ∧
  (∀ (s : State) (v : Byte) (addr : Word), addr ∈ [0xC010, 0xC011] →
    (s.memWrite addr v).io = s.io) ∧
  (∀ (cfg : Config) (io : RouterFlags) (addr : Word) (v : Byte), cfg.registryExt = [] →
    (switchWrite cfg io addr v).banksel = io.banksel ∧
    (switchRead cfg io addr).2.banksel = io.banksel)

/-- R38, R49, R123: an access in the window with no effect defined in its direction returns IO_DEFAULT or changes no
flag, and the step goes on; only the notice records it. Rests on decisions the spec marks as its own: D18 (log 17),
D28 (log 25), D29 (log 26). -/
def Obligations.UnmappedSwitchIsNoOp : Prop :=
  ∀ (s : State) (addr : Word), inWindow addr →
    (unmappedRead s.cfg addr = true →
      s.readByte addr = s.cfg.ioDefault ∧
      s.afterRead addr = { s with events := s.events ++ [⟨.read, addr, s.cfg.ioDefault⟩] }) ∧
    (unmappedWrite s.cfg addr = true → ∀ v : Byte,
      s.memWrite addr v = { s with events := s.events ++ [⟨.write, addr, v⟩] })

/-- R46, R49, R50: with REGISTRY_EXT empty an address of the window has a read effect only at $C010, $C011 and $C01E and a
write effect only at $C000, $C00E, $C00F and $C073; no REGISTRY_EXT changes the entry of a fixed address; every other
address takes its entry from the first row of REGISTRY_EXT that is for it and for PROFILE (or for every profile), and
has none where no row is. What an entry does is SwitchKindsAct. Rests on decisions the spec marks as its own: D19
(log 18), whose rows and their order are the model's form. -/
def Obligations.RegistryHasSevenFixedEntries : Prop :=
  let fixed : List Word := [0xC000, 0xC00E, 0xC00F, 0xC010, 0xC011, 0xC01E, 0xC073]
  let isFor := fun (cfg : Config) (row : ExtRow) (addr : Word) =>
    row.addr = addr ∧ (row.profile = none ∨ row.profile = some cfg.profile)
  (∀ (cfg : Config) (addr : Word), cfg.registryExt = [] →
    (unmappedRead cfg addr = true ↔ addr ∉ [0xC010, 0xC011, 0xC01E]) ∧
    (unmappedWrite cfg addr = true ↔ addr ∉ [0xC000, 0xC00E, 0xC00F, 0xC073])) ∧
  (∀ (cfg : Config) (ext : List ExtRow) (addr : Word), addr ∈ fixed →
    switchEntry { cfg with registryExt := ext } addr = switchEntry cfg addr) ∧
  (∀ (cfg : Config) (before after : List ExtRow) (row : ExtRow) (addr : Word), addr ∉ fixed →
    cfg.registryExt = before ++ row :: after → isFor cfg row addr → (∀ r ∈ before, ¬ isFor cfg r addr) →
    switchEntry cfg addr = some row.entry) ∧
  (∀ (cfg : Config) (addr : Word), addr ∉ fixed → (∀ r ∈ cfg.registryExt, ¬ isFor cfg r addr) →
    switchEntry cfg addr = none)

/-- R37, R38, R50: what an access in the window does with the entry of its address, for each access kind and for none: a
defined read effect returns its byte and makes its assignments, a defined write effect makes its assignments, a
direction the entry does not define is the default no-op, and nothing but the router's flags and the history of notices
changes. Rests on decisions the spec marks as its own: D18 (log 17), D19 (log 18), D28 (log 25), D29 (log 26). -/
def Obligations.SwitchKindsAct : Prop :=
  ∀ (s : State) (addr : Word) (v : Byte), inWindow addr →
    let reads := fun (value : Byte) (io : RouterFlags) =>
      s.readByte addr = value ∧
      s.afterRead addr = { s with io := io, events := s.events ++ [⟨.read, addr, value⟩] }
    let writes := fun (io : RouterFlags) =>
      s.memWrite addr v = { s with io := io, events := s.events ++ [⟨.write, addr, v⟩] }
    let readsBy := fun (r : ReadEffect) =>
      reads (readValue s.cfg.ioDefault s.io r.value) (assignAll (readAtom s.cfg.ioDefault s.io) r.updates s.io)
    let writesBy := fun (w : WriteEffect) => writes (assignAll (flagOf s.io) w.updates s.io)
    let entry := switchEntry s.cfg addr
    (∀ r, entry = some (.read r) → readsBy r ∧ writes s.io) ∧
    (∀ w, entry = some (.write w) → reads s.cfg.ioDefault s.io ∧ writesBy w) ∧
    (∀ f, entry = some (.readBit7 f) →
      reads (BitVec.ofBool (flagOf s.io f) ++ s.cfg.ioDefault.extractLsb' 0 7) s.io ∧ writes s.io) ∧
    (∀ r w, entry = some (.readWrite r w) → readsBy r ∧ writesBy w) ∧
    (entry = none → reads s.cfg.ioDefault s.io ∧ writes s.io)

/-- R37, R50: what the assignments of an effect do to the flags: a flag that is named has the value of the last
expression that names it, evaluated on the flags before the access; a flag that is not named is as before. And the byte
that a read effect names bit by bit has those bits. The form is the model's (log 18, with D19). -/
def Obligations.EffectsAssignFlags : Prop :=
  (∀ (Atom : Type) (atoms : Atom → Bool) (before after : List (RouterFlag × BitExpr Atom))
    (f : RouterFlag) (e : BitExpr Atom) (io : RouterFlags), (∀ u ∈ after, u.1 ≠ f) →
    flagOf (assignAll atoms (before ++ (f, e) :: after) io) f = evalBit atoms e) ∧
  (∀ (Atom : Type) (atoms : Atom → Bool) (updates : List (RouterFlag × BitExpr Atom))
    (f : RouterFlag) (io : RouterFlags), (∀ u ∈ updates, u.1 ≠ f) →
    flagOf (assignAll atoms updates io) f = flagOf io f) ∧
  (∀ (d : Byte) (io : RouterFlags) (b7 b6 b5 b4 b3 b2 b1 b0 : BitExpr ReadAtom),
    let v := readValue d io (.bits b7 b6 b5 b4 b3 b2 b1 b0)
    let bit := evalBit (readAtom d io)
    v.getLsbD 7 = bit b7 ∧ v.getLsbD 6 = bit b6 ∧ v.getLsbD 5 = bit b5 ∧ v.getLsbD 4 = bit b4 ∧
    v.getLsbD 3 = bit b3 ∧ v.getLsbD 2 = bit b2 ∧ v.getLsbD 1 = bit b1 ∧ v.getLsbD 0 = bit b0)

/-- R50: whatever REGISTRY_EXT holds, an access in the window changes nothing but the router's flags and the history
of notices, and adds exactly one notice (R51). Rests on decisions the spec marks as its own: D19 (log 18), D29 (log
26). -/
def Obligations.SwitchesTouchOnlyRouterState : Prop :=
  ∀ (s : State) (addr : Word), inWindow addr →
    (∃ io, s.afterRead addr =
      { s with io := io, events := s.events ++ [⟨.read, addr, s.readByte addr⟩] }) ∧
    ∀ v : Byte, ∃ io, s.memWrite addr v =
      { s with io := io, events := s.events ++ [⟨.write, addr, v⟩] }

/-- §8 Scenario C, R40, R41, R44 through the CPU: after STA $C00E a load of $C01E clears N, after STA $C00F it sets
N, whatever the byte stored and whatever IO_DEFAULT is. Rests on decisions the spec marks as its own: D1 (log 2), D26
(log 24). -/
def Obligations.AltCharReadsBackThroughCpu : Prop :=
  ∀ s : State,
    (∃ t u, exec (.staAbs 0xC00E) s = .next t ∧ exec (.ldaAbs 0xC01E) t = .next u ∧
      u.p.n = false ∧ u.io = { s.io with altchar := false }) ∧
    (∃ t u, exec (.staAbs 0xC00F) s = .next t ∧ exec (.ldaAbs 0xC01E) t = .next u ∧
      u.p.n = true ∧ u.io = { s.io with altchar := true })

/-- R39, R42, R43: with REGISTRY_EXT empty no step changes BANKSEL, and none raises STORE80 or the keyboard strobe.
Rests on decisions the spec marks as its own: D20 (log 19), D21/D22 (log 20). -/
def Obligations.NothingRaisesStrobeOrStore80 : Prop :=
  ∀ s t : State, s.cfg.registryExt = [] → step s = .next t →
    t.io.banksel = s.io.banksel ∧
    (t.io.store80 = true → s.io.store80 = true) ∧
    (t.io.kbdstrobe = true → s.io.kbdstrobe = true)

/-- R52, R8: Read16 reads the byte at the address, then the byte at the next one modulo 2^16, and gives the word
whose low byte is the first and whose high byte is the second; outside the window it changes nothing. Rests on
decisions the spec marks as its own: D3 (log 4), D8 (log 8). -/
def Obligations.WordsAreLittleEndian : Prop :=
  ∀ (s : State) (addr : Word),
    s.readWord addr = (s.afterRead addr).readByte (addr + 1) ++ s.readByte addr ∧
    s.afterReadWord addr = (s.afterRead addr).afterRead (addr + 1) ∧
    (¬ inWindow addr → ¬ inWindow (addr + 1) →
      s.readWord addr = s.peek (addr + 1) ++ s.peek addr ∧ s.afterReadWord addr = s)

/-- R56: a push stores at $0100|SP and decrements SP, a pull increments SP and reads there, both in page 1 with SP
modulo 2^8 and nothing else changed; a pull after a push gives the byte back and SP as it was. Rests on decisions the
spec marks as its own: D6/D7 (log 7). -/
def Obligations.StackPushAndPull : Prop :=
  ∀ (s : State) (v : Byte),
    s.push8 v = { s.poke (page1 s.sp) v with sp := s.sp - 1 } ∧
    s.pulledByte = s.peek (page1 (s.sp + 1)) ∧
    s.afterPull = { s with sp := s.sp + 1 } ∧
    (s.push8 v).pulledByte = v ∧
    (s.push8 v).afterPull.sp = s.sp

/-- R58, R61: after STA zp, or STA abs at a plain address, every bus read of that address gives the byte stored; and a
step that fetches from plain memory runs, or halts on, what the bytes at PC spell with the stored byte in its place, be
it the opcode or an operand byte, of an instruction of one, two or three bytes. (A fetch that is partly in the I/O window
is FetchGoesThroughRouter, with this read of the stored byte.) Rests on decisions the spec marks as its own: D1 (log 2),
D8 (log 8), D13 (log 12), D14 (log 13). -/
def Obligations.StoreIsSeenByNextFetch : Prop :=
  ∀ (s t : State) (i : Instr) (ea : Word),
    ((i = .staAbs ea ∧ ¬ inWindow ea ∧ ¬ inVectors ea) ∨ ∃ zp : Byte, i = .staZp zp ∧ ea = (0 : Byte) ++ zp) →
    exec i s = .next t →
    let byte := fun (addr : Word) => if addr = ea then s.a else s.peek addr
    (∀ u : State, u.mem = t.mem → u.readByte ea = s.a) ∧
    (t.atInstruction → ¬ inWindow t.pc →
      (decodeOp t.cfg (byte t.pc) = none → step t = .next { t with run := .halted t.pc (byte t.pc) }) ∧
      ∀ op, decodeOp t.cfg (byte t.pc) = some op →
        (∀ k, k < op.fetchLength → ¬ inWindow (t.pc + BitVec.ofNat 16 k)) →
        step t = exec (op.build (byte (t.pc + 1)) (byte (t.pc + 2)))
          (t.setPC (t.pc + BitVec.ofNat 16 op.fetchLength)))

/-- R34: a read of plain memory (outside the I/O window) returns the byte of MEM and changes nothing, so that reading it
again gives the same. -/
def Obligations.PlainReadIsPure : Prop :=
  ∀ (s : State) (addr : Word), ¬ inWindow addr →
    s.readByte addr = s.peek addr ∧ s.afterRead addr = s ∧
    (s.afterRead addr).readByte addr = s.readByte addr

/-- R35, R57: no step changes a byte of the vector table. Rests on decisions the spec marks as its own: D12 (log 11). -/
def Obligations.StepNeverChangesVectors : Prop :=
  ∀ s t : State, step s = .next t → ∀ addr : Word, inVectors addr → t.peek addr = s.peek addr

/-- R20: no step reads or changes MEM under the I/O window: two states that differ at most there step alike, to
states that differ at most there, with those bytes as they were. Rests on decisions the spec marks as its own: D9
(log 9). -/
def Obligations.MemoryUnderWindowIsUnreachable : Prop :=
  ∀ s t : State, s.sameButUnderWindow t →
    (∀ s', step s = .next s' → ∃ t', step t = .next t' ∧ s'.sameButUnderWindow t' ∧
      ∀ addr : Word, inWindow addr → s'.peek addr = s.peek addr ∧ t'.peek addr = t.peek addr) ∧
    (∀ f, step s = .fault f → step t = .fault f)

/-- R13: apart from a reset SP moves only by -3 and +3. Rests on decisions the spec marks as its own: D7 (log 7), D16
(log 15). -/
def Obligations.StepMovesStackPointerByThree : Prop :=
  ∀ s t : State, step s = .next t → t.sp = s.sp ∨ t.sp = s.sp - 3 ∨ t.sp = s.sp + 3

/-- R111, R17: RTI is the only instruction that clears I, and no interrupt entry or halt does. Rests on decisions the
spec marks as its own: D16 (log 15). -/
def Obligations.OnlyRtiClearsInterruptDisable : Prop :=
  ∀ s t : State, step s = .next t → s.p.i = true → t.p.i = false →
    s.interruptDue = none ∧ ∃ after, s.fetch = .instr .rti after

/-- The model's own fields that hold what is no hardware state: no step changes the parameters (R6; log 1) or the level
of the irq input, which the host drives (R22, R157; log 15). -/
def Obligations.StepKeepsParameters : Prop :=
  ∀ s t : State, step s = .next t → t.cfg = s.cfg ∧ t.irq = s.irq

/-- R51: a step only adds to the history of notices, and every notice it adds is of an address in the I/O window.
Rests on decisions the spec marks as its own: D29 (log 26). -/
def Obligations.StepOnlyAddsWindowNotices : Prop :=
  ∀ s t : State, step s = .next t →
    ∃ added : List BusEvent, t.events = s.events ++ added ∧ ∀ e ∈ added, inWindow e.addr

/-! ### Status byte, interrupts, reset, the host -/

/-- R16: the status byte has N, V, 1, B, D, I, Z, C in bits 7 to 0; unpacking ignores bit 5, and undoes packing but
for the forced break bit. Rests on decisions the spec marks as its own: D4 (log 5). -/
def Obligations.StatusByteLayout : Prop :=
  (∀ (p : Status) (b : Bool),
    (packP p b).getLsbD 7 = p.n ∧ (packP p b).getLsbD 6 = p.v ∧ (packP p b).getLsbD 5 = true ∧
    (packP p b).getLsbD 4 = b ∧ (packP p b).getLsbD 3 = p.d ∧ (packP p b).getLsbD 2 = p.i ∧
    (packP p b).getLsbD 1 = p.z ∧ (packP p b).getLsbD 0 = p.c ∧
    unpackP (packP p b) = { p with b := b }) ∧
  (∀ v : Byte, unpackP (v ^^^ 0x20) = unpackP v ∧
    packP (unpackP v) (v.getLsbD 4) = v ||| 0x20)

/-- R128, R129: where P_HW_INTERRUPTS is true, a running machine with NMI pending enters through $FFFA and clears
NMI_PENDING, whatever I is; without it, with irq high and I clear, it enters through $FFFE. Entry stores PC as it
stands and the status byte with bit 4 clear and bit 5 set at the three stack locations from SP down, subtracts 3 from
SP, sets I, and changes nothing else; no instruction is executed. The host's assertion of nmi sets NMI_PENDING, and a
second one has no further effect. Rests on decisions the spec marks as its own: D3 (log 4), D4 (log 5), D6 (log 7),
D16 (log 15). -/
def Obligations.InterruptEntry : Prop :=
  (∀ s : State, s.cfg.pHwInterrupts = true →
    s.assertNmi = { s with nmiPending := true } ∧ s.assertNmi.assertNmi = s.assertNmi) ∧
  ∀ s : State, s.run = .running → s.cfg.pHwInterrupts = true →
    let entered := fun (v0 v1 : Word) (t : State) =>
      t = { s with
        mem := t.mem
        sp := s.sp - 3
        p := { s.p with i := true }
        pc := s.peek v1 ++ s.peek v0
        nmiPending := false } ∧
      t.peek (page1 s.sp) = s.pc.extractLsb' 8 8 ∧
      t.peek (page1 (s.sp - 1)) = s.pc.extractLsb' 0 8 ∧
      t.peek (page1 (s.sp - 2)) = byteOfBits s.p.n s.p.v true false s.p.d s.p.i s.p.z s.p.c ∧
      ∀ addr : Word, addr ∉ [page1 s.sp, page1 (s.sp - 1), page1 (s.sp - 2)] →
        t.peek addr = s.peek addr
    (s.nmiPending = true → ∃ t, step s = .next t ∧ entered 0xFFFA 0xFFFB t) ∧
    (s.nmiPending = false → s.irq = true → s.p.i = false →
      ∃ t, step s = .next t ∧ entered 0xFFFE 0xFFFF t)

/-- R126: BRK dispatches whatever the value of I: from two states that differ in I alone, both at an instruction
boundary with a BRK at PC, the steps enter the handler with SP lowered by 3, I set and PC from the vector, to states
that differ at most in the three bytes pushed. I gates only the irq input: where irq is low it has no part in whether an
interrupt is taken, NMI's included. Rests on decisions the spec marks as its own: D16 (log 15, that NMI is not masked, and
the field that holds the irq level). -/
def Obligations.BrkIsNotMaskable : Prop :=
  ∀ (s : State) (b : Bool),
    let s' : State := { s with p := { s.p with i := b } }
    (s.irq = false → s'.interruptDue = s.interruptDue) ∧
    (s.aboutToRun .brk → s'.interruptDue = none →
      ∃ t t', step s = .next t ∧ step s' = .next t' ∧
        t.sp = s.sp - 3 ∧ t.p.i = true ∧ t.pc = s.readWord irqVector ∧
        t' = { t with mem := t'.mem } ∧
        ∀ addr : Word, addr ∉ storeAddrs .brk s → t'.peek addr = t.peek addr)

/-- R130: at an instruction boundary Halted is above NMI, NMI above IRQ, and an IRQ that I masks is not taken; R124:
with P_HW_INTERRUPTS false no interrupt ever is. Rests on decisions the spec marks as its own: D14 (log 13), D16/D34
(log 15). -/
def Obligations.InterruptPriority : Prop :=
  ∀ s : State,
    (∀ addr opcode, s.run = .halted addr opcode → step s = .fault (.illegalOpcode addr opcode)) ∧
    (s.cfg.pHwInterrupts = true → s.nmiPending = true → s.interruptDue = some .nmi) ∧
    (s.cfg.pHwInterrupts = true → s.nmiPending = false →
      s.interruptDue = if s.irq && !s.p.i then some .irq else none) ∧
    (s.cfg.pHwInterrupts = false → s.interruptDue = none)

/-- R150, R151, R23: a reset loads every register and flag from its RST parameter, clears NMI_PENDING, sets RUN to
Running and PC from the reset vector, low byte at $FFFC; it changes neither MEM nor the history of notices. The
parameters and the irq level in the state are log 1 and log 15. Rests on decisions the spec marks as its own: D3 (log
4), D15/D33 (log 14). -/
def Obligations.ResetSequence : Prop :=
  ∀ s : State, s.hostReset = {
    cfg := s.cfg, a := s.cfg.rstA, x := s.cfg.rstX, y := s.cfg.rstY, sp := s.cfg.rstSP
    pc := s.peek 0xFFFD ++ s.peek 0xFFFC, p := s.cfg.rstP, mem := s.mem, io := s.cfg.rstIO
    run := .running, nmiPending := false, irq := s.irq, events := s.events }

/-- R23 at the defaults of R6: A, X and Y zero, SP $FD, I set and the other flags clear, the router's flags clear,
Running, no NMI pending, and PC $0000 from a vector of unloaded memory (V-RST-3). These defaults are the spec's
decisions D15, D24 and D33, not the source's words (log 14, log 22). -/
def Obligations.ResetStateAtDefaults : Prop :=
  let s := State.reset
  s.a = 0 ∧ s.x = 0 ∧ s.y = 0 ∧ s.sp = 0xFD ∧ s.pc = 0 ∧
  s.p = { c := false, z := false, i := true, d := false, b := false, v := false, n := false } ∧
  s.io.store80 = false ∧ s.io.altchar = false ∧ s.io.banksel = false ∧ s.io.kbdstrobe = false ∧
  s.run = .running ∧ s.nmiPending = false ∧ ∀ addr : Word, s.peek addr = 0

/-- R64: a load is refused exactly when the image would run past $FFFF; otherwise each byte of the image, the vectors
and the bytes under the window included, stands at its address, every other byte is as before, and nothing else
changes: no switch, no notice. Rests on decisions the spec marks as its own: D24 (log 22). -/
def Obligations.ImageLoad : Prop :=
  ∀ (s : State) (image : List Byte) (base : Word),
    (s.load image base = none ↔ 65536 < base.toNat + image.length) ∧
    ∀ t, s.load image base = some t →
      t = { s with mem := t.mem } ∧
      (∀ (k : Nat) (h : k < image.length), t.peek (base + BitVec.ofNat 16 k) = image[k]) ∧
      ∀ addr : Word, (addr.toNat < base.toNat ∨ base.toNat + image.length ≤ addr.toNat) →
        t.peek addr = s.peek addr

/-- R157, R124: a key event changes the strobe alone; the interrupt inputs move only where P_HW_INTERRUPTS is true;
observing changes nothing. Rests on decisions the spec marks as its own: D16 (log 15), D20 (log 19). -/
def Obligations.HostInputs : Prop :=
  ∀ s : State,
    s.hostMove .keyEvent = some { s with io := { s.io with kbdstrobe := true } } ∧
    s.hostMove .observe = some s ∧
    (s.cfg.pHwInterrupts = true →
      s.hostMove .assertNmi = some { s with nmiPending := true } ∧
      ∀ level, s.hostMove (.driveIrq level) = some { s with irq := level }) ∧
    (s.cfg.pHwInterrupts = false → s.hostMove .assertNmi = some s ∧
      ∀ level, s.hostMove (.driveIrq level) = some { s with irq := false })

/-- R160: the cycle counts that `step()` returns, with CYCLES at the table of R160. PRESUMED counts (log 16). -/
def Obligations.CycleCounts : Prop :=
  ∀ s : State, s.cfg.cycles = standardCycles →
    instrCycles .tsx s = 2 ∧
    (∀ v : Byte, instrCycles (.ldaImm v) s = 2 ∧ instrCycles (.ldxImm v) s = 2 ∧
      instrCycles (.ldyImm v) s = 2 ∧ instrCycles (.cmpImm v) s = 2 ∧
      instrCycles (.ldaZp v) s = 3 ∧ instrCycles (.staZp v) s = 3) ∧
    (∀ w : Word, instrCycles (.ldaAbs w) s = 4 ∧ instrCycles (.staAbs w) s = 4 ∧
      instrCycles (.jmpAbs w) s = 3 ∧
      instrCycles (.ldaAbsX w) s =
        if 255 < (w.extractLsb' 0 8).toNat + s.x.toNat then 5 else 4) ∧
    (∀ rel : Byte, instrCycles (.bneRel rel) s =
      if s.p.z then 2
      else if (s.pc + rel.signExtend 16).extractLsb' 8 8 = s.pc.extractLsb' 8 8 then 3 else 4) ∧
    instrCycles .brk s = 7 ∧ instrCycles .rti s = 6 ∧
    (s.run = .running → s.interruptDue ≠ none → stepReport s = ⟨7, .normal⟩) ∧
    (∀ i : Instr, s.aboutToRun i → stepReport s =
      ⟨instrCycles i (s.setPC (s.pc + BitVec.ofNat 16 i.op.fetchLength)), .normal⟩)

/-! ### The invariant -/

/-- Every step keeps the invariant: canonical memory and flags, interrupt inputs tied where P_HW_INTERRUPTS is false
(R22, R124), a halted machine at the illegal opcode it reports (R121). Rests on decisions the spec marks as its own:
D14 (log 13), D16 (log 15). -/
def Obligations.StepKeepsInvariant : Prop :=
  ∀ s t : State, s.Inv → step s = .next t → t.Inv

/-- The reset state, at the defaults of every parameter, meets the invariant. R23 does not give the invariant: it is the
model's, and the state is at the model's defaults: the register and flag values of log 14, the irq line low of log 15,
no memory listed of log 22, and no flag of REGISTRY_EXT raised of log 18. -/
def Obligations.ResetMeetsInvariant : Prop := State.reset.Inv

/-- Every move of the host keeps the invariant. Rests on decisions the spec marks as its own: D16 (log 15), D24 (log
22). -/
def Obligations.HostMovesKeepInvariant : Prop :=
  ∀ (s t : State) (m : HostMove), s.Inv → s.hostMove m = some t → t.Inv
end

