-- ==== Sys2Proof/Laws/Flags.lean ====
section
/-! SUPPORT. The laws of the flag computations: the bits of the status byte, and the compare as unsigned arithmetic. -/

namespace Sys2Proof.Machine

/-- The bits of eight joined bits. -/
theorem getLsbD_byteOfBits (b7 b6 b5 b4 b3 b2 b1 b0 : Bool) :
    (byteOfBits b7 b6 b5 b4 b3 b2 b1 b0).getLsbD 7 = b7 ∧ (byteOfBits b7 b6 b5 b4 b3 b2 b1 b0).getLsbD 6 = b6 ∧
    (byteOfBits b7 b6 b5 b4 b3 b2 b1 b0).getLsbD 5 = b5 ∧ (byteOfBits b7 b6 b5 b4 b3 b2 b1 b0).getLsbD 4 = b4 ∧
    (byteOfBits b7 b6 b5 b4 b3 b2 b1 b0).getLsbD 3 = b3 ∧ (byteOfBits b7 b6 b5 b4 b3 b2 b1 b0).getLsbD 2 = b2 ∧
    (byteOfBits b7 b6 b5 b4 b3 b2 b1 b0).getLsbD 1 = b1 ∧ (byteOfBits b7 b6 b5 b4 b3 b2 b1 b0).getLsbD 0 = b0 := by
  revert b7 b6 b5 b4 b3 b2 b1 b0
  decide

/-- The 9-bit sum of the compare is `A - imm8 + 256` (R100). -/
theorem toNat_compareSum (a imm : Byte) : (compareSum a imm).toNat = a.toNat + 256 - imm.toNat := by
  have := a.isLt
  have := imm.isLt
  simp only [compareSum, BitVec.toNat_add, BitVec.toNat_setWidth, BitVec.toNat_not]
  simp
  omega

/-- The compare: C is "no borrow", Z is equality, N is bit 7 of the difference (R100). -/
theorem compareFlags_eq (p : Status) (a imm : Byte) :
    compareFlags p a imm = { p with
      c := decide (imm.toNat ≤ a.toNat), z := decide (a = imm), n := (a - imm).getLsbD 7 } := by
  have ha := a.isLt
  have hi := imm.isLt
  have hs := toNat_compareSum a imm
  have hr : (compareSum a imm).extractLsb' 0 8 = a - imm := by
    apply BitVec.eq_of_toNat_eq
    simp only [BitVec.extractLsb'_toNat, hs, BitVec.toNat_sub, Nat.shiftRight_zero]
    omega
  have hc : (compareSum a imm).getLsbD 8 = decide (imm.toNat ≤ a.toNat) := by
    rw [BitVec.getLsbD, hs, Nat.testBit_eq_decide_div_mod_eq]
    apply decide_eq_decide.2
    omega
  have hz : (a - imm = 0) ↔ a = imm := by
    rw [BitVec.sub_eq_iff_eq_add]
    simp
  simp only [compareFlags, hr, hc, hz]

end Sys2Proof.Machine
end

