-- ==== Sys2Proof/Laws/Decode.lean ====
section
/-! SUPPORT. The laws of the byte helpers, of the opcode lookup, and of operand assembly. -/

namespace Sys2Proof

theorem toNat_joinBytes (hi lo : Byte) : (joinBytes hi lo).toNat = hi.toNat * 256 + lo.toNat := by
  show ((hi ++ lo : BitVec (8 + 8)).toNat) = _
  rw [BitVec.toNat_append, ← Nat.shiftLeft_add_eq_or_of_lt lo.isLt, Nat.shiftLeft_eq]

theorem toNat_lowByte (w : Word) : (lowByte w).toNat = w.toNat % 256 := by
  simp [lowByte]

theorem toNat_highByte (w : Word) : (highByte w).toNat = w.toNat / 256 := by
  have := w.isLt
  simp only [highByte, BitVec.extractLsb'_toNat, Nat.shiftRight_eq_div_pow]
  omega

@[simp] theorem lowByte_joinBytes (hi lo : Byte) : lowByte (joinBytes hi lo) = lo := by
  apply BitVec.eq_of_toNat_eq
  have := lo.isLt
  rw [toNat_lowByte, toNat_joinBytes]
  omega

@[simp] theorem highByte_joinBytes (hi lo : Byte) : highByte (joinBytes hi lo) = hi := by
  apply BitVec.eq_of_toNat_eq
  have := lo.isLt
  rw [toNat_highByte, toNat_joinBytes]
  omega

@[simp] theorem joinBytes_high_low (w : Word) : joinBytes (highByte w) (lowByte w) = w := by
  apply BitVec.eq_of_toNat_eq
  rw [toNat_joinBytes, toNat_highByte, toNat_lowByte]
  omega

theorem Op.mem_all (op : Op) : op ∈ Op.all := by cases op <;> decide

/-- Distinct opcode bytes: equal bytes are of equal rows (R71). -/
theorem Config.opc_injective {cfg : Config} (h : cfg.opcodesDistinct = true) {op op' : Op}
    (he : cfg.opc.get op = cfg.opc.get op') : op = op' :=
  List.inj_on_of_nodup_map (of_decide_eq_true h) op.mem_all op'.mem_all he

/-- What the lookup finds is a recognised row with that byte (R71). -/
theorem decodeOp_some {cfg : Config} {b : Byte} {op : Op} (h : decodeOp cfg b = some op) :
    cfg.recognises op = true ∧ cfg.opc.get op = b := by
  simpa [decodeOp] using List.find?_some h

/-- A recognised row's byte is looked up to that row (R71). -/
theorem decodeOp_opc {cfg : Config} (h : cfg.opcodesDistinct = true) {op : Op}
    (hr : cfg.recognises op = true) : decodeOp cfg (cfg.opc.get op) = some op := by
  cases hd : decodeOp cfg (cfg.opc.get op) with
  | none =>
    have := List.find?_eq_none.1 hd op op.mem_all
    simp [hr] at this
  | some op' => rw [Config.opc_injective h (decodeOp_some hd).2]

/-- An instruction is what its kind builds from its operand bytes. -/
theorem decodeOperands_operands (i : Instr) (rest : List Byte) :
    decodeOperands i.op (i.operands ++ rest) = .ok i rest := by
  cases i <;> simp [decodeOperands, Instr.op, Instr.operands, Op.format, Format.operandBytes, Op.build]

theorem Op.build_op (op : Op) (b1 b2 : Byte) : (op.build b1 b2).op = op := by cases op <;> rfl

theorem Instr.operands_length (i : Instr) : i.operands.length = i.op.format.operandBytes := by
  cases i <;> rfl

theorem Op.fetchLength_le (op : Op) : op.fetchLength ≤ 3 := by cases op <;> decide

theorem Instr.operands_length_le (i : Instr) : i.operands.length ≤ 2 := by cases i <;> simp [Instr.operands]

/-! ### Operand bytes (R72) -/

theorem Op.operandBytes_cases (op : Op) :
    op.format.operandBytes = 0 ∨ op.format.operandBytes = 1 ∨ op.format.operandBytes = 2 := by
  cases op <;> decide

/-- A format with no operand byte uses neither. -/
theorem Op.build_of_none {op : Op} (h : op.format.operandBytes = 0) (b1 b2 : Byte) :
    op.build b1 b2 = op.build 0 0 := by
  cases op <;> first | rfl | exact absurd h (by decide)

/-- A format with one operand byte uses the first. -/
theorem Op.build_of_one {op : Op} (h : op.format.operandBytes = 1) (b1 b2 : Byte) :
    op.build b1 b2 = op.build b1 0 := by
  cases op <;> first | rfl | exact absurd h (by decide)

end Sys2Proof
end

