-- ==== Sys2Proof/Laws/Cells.lean ====
section
/-! SUPPORT. The laws of sparse cells: read after write, and that every operation keeps the canonical form. -/

namespace Sys2Proof.Machine.Cells

variable {α : Type}

@[simp] theorem get_nil (blank : α) (k : Nat) : get blank [] k = blank := rfl

theorem get_cons (blank : α) (c : Nat × α) (cells : List (Nat × α)) (k : Nat) :
    get blank (c :: cells) k = if c.1 = k then c.2 else get blank cells k := rfl

theorem get_erase (blank : α) (cells : List (Nat × α)) (k j : Nat) :
    get blank (erase cells k) j = if j = k then blank else get blank cells j := by
  induction cells with
  | nil => simp [erase]
  | cons c rest ih =>
    by_cases h : c.1 = k
    · have he : erase (c :: rest) k = erase rest k := by simp [erase, h]
      rw [he, ih, get_cons]
      by_cases hj : j = k
      · simp [hj]
      · simp [hj, h, Ne.symm hj]
    · have he : erase (c :: rest) k = c :: erase rest k := by simp [erase, h]
      rw [he, get_cons, get_cons, ih]
      by_cases hj : j = k
      · subst hj; simp [h]
      · simp [hj]

theorem get_insert (blank : α) (cells : List (Nat × α)) (k j : Nat) (v : α)
    (hk : ∀ c ∈ cells, c.1 ≠ k) :
    get blank (insert cells k v) j = if j = k then v else get blank cells j := by
  induction cells with
  | nil => simp [insert, get_cons, eq_comm]
  | cons c rest ih =>
    have hc : c.1 ≠ k := hk c (by simp)
    have ih' := ih (fun d hd => hk d (by simp [hd]))
    unfold insert
    split
    · simp [get_cons, eq_comm]
    · rw [get_cons, ih', get_cons]
      by_cases hj : j = k
      · subst hj; simp [hc]
      · simp [hj]

theorem key_ne_of_mem_erase {cells : List (Nat × α)} {k : Nat} {c : Nat × α}
    (h : c ∈ erase cells k) : c ∈ cells ∧ c.1 ≠ k := by
  simpa [erase] using h

/-- Read after write: the key written gives the value, every other key what it gave before. -/
theorem get_set [DecidableEq α] (blank : α) (cells : List (Nat × α)) (k j : Nat) (v : α) :
    get blank (set blank cells k v) j = if j = k then v else get blank cells j := by
  unfold set
  split
  · next h => rw [get_erase, h]
  · rw [get_insert _ _ _ _ _ (fun c hc => (key_ne_of_mem_erase hc).2), get_erase]
    by_cases hj : j = k <;> simp [hj]

theorem mem_insert {cells : List (Nat × α)} {k : Nat} {v : α} {c : Nat × α} :
    c ∈ insert cells k v ↔ c = (k, v) ∨ c ∈ cells := by
  induction cells with
  | nil => simp [insert]
  | cons d rest ih =>
    unfold insert
    split <;> simp [ih, or_left_comm]

theorem mem_of_mem_set [DecidableEq α] {blank : α} {cells : List (Nat × α)} {k : Nat} {v : α} {c : Nat × α}
    (h : c ∈ set blank cells k v) : c = (k, v) ∨ c ∈ cells := by
  unfold set at h
  split at h
  · exact .inr (key_ne_of_mem_erase h).1
  · exact (mem_insert.1 h).imp_right (fun h => (key_ne_of_mem_erase h).1)

theorem canonical_nil (blank : α) : Canonical blank ([] : List (Nat × α)) := by simp [Canonical]

theorem canonical_erase {blank : α} {cells : List (Nat × α)} (h : Canonical blank cells) (k : Nat) :
    Canonical blank (erase cells k) :=
  ⟨h.1.filter _, fun c hc => h.2 c (key_ne_of_mem_erase hc).1⟩

theorem pairwise_insert {cells : List (Nat × α)} {k : Nat} (v : α)
    (h : cells.Pairwise (fun c d => c.1 < d.1)) (hk : ∀ c ∈ cells, c.1 ≠ k) :
    (insert cells k v).Pairwise (fun c d => c.1 < d.1) := by
  induction cells with
  | nil => simp [insert]
  | cons c rest ih =>
    obtain ⟨hc, hr⟩ := List.pairwise_cons.1 h
    have hck : c.1 ≠ k := hk c (by simp)
    unfold insert
    split
    · next hlt =>
      refine List.pairwise_cons.2 ⟨?_, h⟩
      rintro d hd
      rcases List.mem_cons.1 hd with rfl | hd
      · exact hlt
      · exact hlt.trans (hc d hd)
    · next hlt =>
      refine List.pairwise_cons.2 ⟨?_, ih hr (fun d hd => hk d (by simp [hd]))⟩
      intro d hd
      rcases mem_insert.1 hd with rfl | hd
      · show c.1 < k
        omega
      · exact hc d hd

/-- Every write keeps the canonical form. -/
theorem canonical_set [DecidableEq α] {blank : α} {cells : List (Nat × α)} (h : Canonical blank cells) (k : Nat) (v : α) :
    Canonical blank (set blank cells k v) := by
  unfold set
  split
  · exact canonical_erase h k
  · next hv =>
    have he := canonical_erase h k
    refine ⟨pairwise_insert v he.1 (fun c hc => (key_ne_of_mem_erase hc).2), ?_⟩
    intro c hc
    rcases mem_insert.1 hc with rfl | hc
    · exact hv
    · exact he.2 c hc

end Sys2Proof.Machine.Cells
end

