-- ==== Sys2Proof/Laws/Memory.lean ====
section
/-! SUPPORT. The laws of `MEM`: read after write, and that every memory operation keeps the canonical form. -/

namespace Sys2Proof.Machine

theorem Memory.read_write (m : Memory) (a b : Nat) (v : Byte) :
    (m.write a v).read b = if b = a then v else m.read b :=
  Cells.get_set _ _ _ _ _

@[simp] theorem Memory.read_write_same (m : Memory) (a : Nat) (v : Byte) : (m.write a v).read a = v := by
  simp [Memory.read_write]

theorem Memory.read_write_other (m : Memory) {a b : Nat} (v : Byte) (h : b ≠ a) :
    (m.write a v).read b = m.read b := by
  simp [Memory.read_write, h]

theorem Memory.wf_init : Memory.init.wf := by decide

/-- A write at an address of the hardware keeps the canonical form. -/
theorem Memory.wf_write {m : Memory} (h : m.wf) (a : Word) (v : Byte) : (m.write a.toNat v).wf := by
  refine ⟨Cells.canonical_set h.1 _ _, fun c hc => ?_⟩
  rcases Cells.mem_of_mem_set hc with rfl | hc
  · exact a.isLt
  · exact h.2 c hc

end Sys2Proof.Machine
end

