-- ==== Sys2Proof/Laws/Router.lean ====
section
/-! SUPPORT. The laws of the registry: what each fixed entry does, the default no-op, and that a switch keeps the
canonical form of the flags REGISTRY_EXT adds. -/

namespace Sys2Proof.Machine

theorem assignFlag_ext_canonical {io : RouterFlags} (h : Cells.Canonical false io.ext) (f : RouterFlag) (b : Bool) :
    Cells.Canonical false (assignFlag io f b).ext := by
  cases f <;> first | exact h | exact Cells.canonical_set h _ _

theorem assignAll_ext_canonical {Atom : Type} (atoms : Atom → Bool) (updates : List (RouterFlag × BitExpr Atom))
    {io : RouterFlags} (h : Cells.Canonical false io.ext) :
    Cells.Canonical false (assignAll atoms updates io).ext := by
  induction updates generalizing io with
  | nil => exact h
  | cons u rest ih => exact ih (assignFlag_ext_canonical h _ _)

theorem switchRead_ext_canonical (cfg : Config) {io : RouterFlags} (h : Cells.Canonical false io.ext) (addr : Word) :
    Cells.Canonical false (switchRead cfg io addr).2.ext := by
  unfold switchRead
  split <;> first | exact h | exact assignAll_ext_canonical _ _ h

theorem switchWrite_ext_canonical (cfg : Config) {io : RouterFlags} (h : Cells.Canonical false io.ext)
    (addr : Word) (v : Byte) : Cells.Canonical false (switchWrite cfg io addr v).ext := by
  unfold switchWrite
  split <;> first | exact h | exact assignAll_ext_canonical _ _ h

/-! ### What an effect assigns -/

theorem flagOf_assignFlag (io : RouterFlags) (f g : RouterFlag) (b : Bool) :
    flagOf (assignFlag io f b) g = if g = f then b else flagOf io g := by
  cases f <;> cases g <;> simp [flagOf, assignFlag, Cells.get_set]

/-- A flag that no assignment names is as before. -/
theorem flagOf_assignAll_other {Atom : Type} (atoms : Atom → Bool) (updates : List (RouterFlag × BitExpr Atom))
    (io : RouterFlags) {f : RouterFlag} (h : ∀ u ∈ updates, u.1 ≠ f) :
    flagOf (assignAll atoms updates io) f = flagOf io f := by
  induction updates generalizing io with
  | nil => rfl
  | cons u rest ih =>
    rw [assignAll, ih _ (fun w hw => h w (List.mem_cons_of_mem _ hw)), flagOf_assignFlag,
      if_neg (Ne.symm (h u List.mem_cons_self))]

/-- A flag has the value of the last assignment that names it. -/
theorem flagOf_assignAll_last {Atom : Type} (atoms : Atom → Bool) (before after : List (RouterFlag × BitExpr Atom))
    (u : RouterFlag × BitExpr Atom) (io : RouterFlags) (h : ∀ w ∈ after, w.1 ≠ u.1) :
    flagOf (assignAll atoms (before ++ u :: after) io) u.1 = evalBit atoms u.2 := by
  induction before generalizing io with
  | nil => rw [List.nil_append, assignAll, flagOf_assignAll_other _ _ _ h, flagOf_assignFlag, if_pos rfl]
  | cons w rest ih => exact ih _

/-! ### The fixed entries (R39-R45): REGISTRY_EXT cannot change them -/

theorem switchEntry_of_fixed (cfg : Config) {addr : Word} {e : SwitchEntry}
    (h : fixedEntry fixedSwitches addr = some e) : switchEntry cfg addr = some e := by
  simp [switchEntry, h]

theorem switchWrite_C000 (cfg : Config) (io : RouterFlags) (v : Byte) :
    switchWrite cfg io 0xC000 v = { io with store80 := false } := rfl

theorem switchWrite_C00E (cfg : Config) (io : RouterFlags) (v : Byte) :
    switchWrite cfg io 0xC00E v = { io with altchar := false } := rfl

theorem switchWrite_C00F (cfg : Config) (io : RouterFlags) (v : Byte) :
    switchWrite cfg io 0xC00F v = { io with altchar := true } := rfl

theorem switchWrite_C073 (cfg : Config) (io : RouterFlags) (v : Byte) : switchWrite cfg io 0xC073 v = io := rfl

theorem switchRead_C010 (cfg : Config) (io : RouterFlags) :
    switchRead cfg io 0xC010 = (cfg.ioDefault, { io with kbdstrobe := false }) := rfl

theorem switchRead_C011 (cfg : Config) (io : RouterFlags) :
    switchRead cfg io 0xC011 = (bit7Value cfg.ioDefault io.banksel, io) := rfl

theorem switchRead_C01E (cfg : Config) (io : RouterFlags) :
    switchRead cfg io 0xC01E = (bit7Value cfg.ioDefault io.altchar, io) := rfl

/-! ### The default no-op (R38, R49) -/

theorem switchRead_unmapped {cfg : Config} {addr : Word} (h : unmappedRead cfg addr = true) (io : RouterFlags) :
    switchRead cfg io addr = (cfg.ioDefault, io) := by
  unfold unmappedRead at h
  unfold switchRead
  split at h <;> simp_all

theorem switchWrite_unmapped {cfg : Config} {addr : Word} (h : unmappedWrite cfg addr = true) (io : RouterFlags)
    (v : Byte) : switchWrite cfg io addr v = io := by
  unfold unmappedWrite at h
  unfold switchWrite
  split at h <;> simp_all

/-- With REGISTRY_EXT empty the registry is the seven fixed entries. -/
theorem switchEntry_noExt {cfg : Config} (h : cfg.registryExt = []) (addr : Word) :
    switchEntry cfg addr = fixedEntry fixedSwitches addr := by
  unfold switchEntry
  split <;> simp_all [extEntry]

/-! ### REGISTRY_EXT (R50) -/

/-- The first row that fits an address and the profile gives the entry. -/
theorem extEntry_first {profile : Profile} {row : ExtRow} (before after : List ExtRow)
    (hp : row.profile = none ∨ row.profile = some profile)
    (hb : ∀ r ∈ before, ¬ (r.addr = row.addr ∧ (r.profile = none ∨ r.profile = some profile))) :
    extEntry profile (before ++ row :: after) row.addr = some row.entry := by
  induction before with
  | nil => rw [List.nil_append, extEntry, if_pos ⟨rfl, hp⟩]
  | cons r rest ih =>
    rw [List.cons_append, extEntry, if_neg (hb r List.mem_cons_self),
      ih (fun q hq => hb q (List.mem_cons_of_mem _ hq))]

/-- Where no row fits there is no entry. -/
theorem extEntry_none {profile : Profile} {rows : List ExtRow} {addr : Word}
    (h : ∀ r ∈ rows, ¬ (r.addr = addr ∧ (r.profile = none ∨ r.profile = some profile))) :
    extEntry profile rows addr = none := by
  induction rows with
  | nil => rfl
  | cons r rest ih =>
    rw [extEntry, if_neg (h r List.mem_cons_self), ih (fun q hq => h q (List.mem_cons_of_mem _ hq))]

/-- An address that is not one of the seven has the entry of REGISTRY_EXT. -/
theorem switchEntry_of_ext (cfg : Config) {addr : Word} (h : fixedEntry fixedSwitches addr = none) :
    switchEntry cfg addr = extEntry cfg.profile cfg.registryExt addr := by
  simp only [switchEntry, h]

/-- The seven fixed addresses, and no other, have a fixed entry. -/
theorem fixedEntry_eq_none {addr : Word} :
    fixedEntry fixedSwitches addr = none ↔
      addr ∉ [0xC000, 0xC00E, 0xC00F, 0xC010, 0xC011, 0xC01E, 0xC073] := by
  simp only [fixedEntry, fixedSwitches, eq_comm (b := addr)]
  constructor
  · intro h
    repeat' split at h
    all_goals simp_all
  · intro h
    simp only [List.mem_cons, List.not_mem_nil, or_false, not_or] at h
    obtain ⟨h1, h2, h3, h4, h5, h6, h7⟩ := h
    rw [if_neg h1, if_neg h2, if_neg h3, if_neg h4, if_neg h5, if_neg h6, if_neg h7]

end Sys2Proof.Machine
end

