-- ==== Sys2Proof/Laws/State.lean ====
section
/-! SUPPORT. What each named register update does to each field of the state. -/

namespace Sys2Proof.Machine

@[simp] theorem State.setA_cfg (s : State) (v : Byte) : (s.setA v).cfg = s.cfg := rfl
@[simp] theorem State.setA_a (s : State) (v : Byte) : (s.setA v).a = v := rfl
@[simp] theorem State.setA_x (s : State) (v : Byte) : (s.setA v).x = s.x := rfl
@[simp] theorem State.setA_y (s : State) (v : Byte) : (s.setA v).y = s.y := rfl
@[simp] theorem State.setA_sp (s : State) (v : Byte) : (s.setA v).sp = s.sp := rfl
@[simp] theorem State.setA_pc (s : State) (v : Byte) : (s.setA v).pc = s.pc := rfl
@[simp] theorem State.setA_p (s : State) (v : Byte) : (s.setA v).p = s.p := rfl
@[simp] theorem State.setA_mem (s : State) (v : Byte) : (s.setA v).mem = s.mem := rfl
@[simp] theorem State.setA_io (s : State) (v : Byte) : (s.setA v).io = s.io := rfl
@[simp] theorem State.setA_run (s : State) (v : Byte) : (s.setA v).run = s.run := rfl
@[simp] theorem State.setA_nmiPending (s : State) (v : Byte) : (s.setA v).nmiPending = s.nmiPending := rfl
@[simp] theorem State.setA_irq (s : State) (v : Byte) : (s.setA v).irq = s.irq := rfl
@[simp] theorem State.setA_events (s : State) (v : Byte) : (s.setA v).events = s.events := rfl

@[simp] theorem State.setX_cfg (s : State) (v : Byte) : (s.setX v).cfg = s.cfg := rfl
@[simp] theorem State.setX_a (s : State) (v : Byte) : (s.setX v).a = s.a := rfl
@[simp] theorem State.setX_x (s : State) (v : Byte) : (s.setX v).x = v := rfl
@[simp] theorem State.setX_y (s : State) (v : Byte) : (s.setX v).y = s.y := rfl
@[simp] theorem State.setX_sp (s : State) (v : Byte) : (s.setX v).sp = s.sp := rfl
@[simp] theorem State.setX_pc (s : State) (v : Byte) : (s.setX v).pc = s.pc := rfl
@[simp] theorem State.setX_p (s : State) (v : Byte) : (s.setX v).p = s.p := rfl
@[simp] theorem State.setX_mem (s : State) (v : Byte) : (s.setX v).mem = s.mem := rfl
@[simp] theorem State.setX_io (s : State) (v : Byte) : (s.setX v).io = s.io := rfl
@[simp] theorem State.setX_run (s : State) (v : Byte) : (s.setX v).run = s.run := rfl
@[simp] theorem State.setX_nmiPending (s : State) (v : Byte) : (s.setX v).nmiPending = s.nmiPending := rfl
@[simp] theorem State.setX_irq (s : State) (v : Byte) : (s.setX v).irq = s.irq := rfl
@[simp] theorem State.setX_events (s : State) (v : Byte) : (s.setX v).events = s.events := rfl

@[simp] theorem State.setY_cfg (s : State) (v : Byte) : (s.setY v).cfg = s.cfg := rfl
@[simp] theorem State.setY_a (s : State) (v : Byte) : (s.setY v).a = s.a := rfl
@[simp] theorem State.setY_x (s : State) (v : Byte) : (s.setY v).x = s.x := rfl
@[simp] theorem State.setY_y (s : State) (v : Byte) : (s.setY v).y = v := rfl
@[simp] theorem State.setY_sp (s : State) (v : Byte) : (s.setY v).sp = s.sp := rfl
@[simp] theorem State.setY_pc (s : State) (v : Byte) : (s.setY v).pc = s.pc := rfl
@[simp] theorem State.setY_p (s : State) (v : Byte) : (s.setY v).p = s.p := rfl
@[simp] theorem State.setY_mem (s : State) (v : Byte) : (s.setY v).mem = s.mem := rfl
@[simp] theorem State.setY_io (s : State) (v : Byte) : (s.setY v).io = s.io := rfl
@[simp] theorem State.setY_run (s : State) (v : Byte) : (s.setY v).run = s.run := rfl
@[simp] theorem State.setY_nmiPending (s : State) (v : Byte) : (s.setY v).nmiPending = s.nmiPending := rfl
@[simp] theorem State.setY_irq (s : State) (v : Byte) : (s.setY v).irq = s.irq := rfl
@[simp] theorem State.setY_events (s : State) (v : Byte) : (s.setY v).events = s.events := rfl

@[simp] theorem State.setSP_cfg (s : State) (v : Byte) : (s.setSP v).cfg = s.cfg := rfl
@[simp] theorem State.setSP_a (s : State) (v : Byte) : (s.setSP v).a = s.a := rfl
@[simp] theorem State.setSP_x (s : State) (v : Byte) : (s.setSP v).x = s.x := rfl
@[simp] theorem State.setSP_y (s : State) (v : Byte) : (s.setSP v).y = s.y := rfl
@[simp] theorem State.setSP_sp (s : State) (v : Byte) : (s.setSP v).sp = v := rfl
@[simp] theorem State.setSP_pc (s : State) (v : Byte) : (s.setSP v).pc = s.pc := rfl
@[simp] theorem State.setSP_p (s : State) (v : Byte) : (s.setSP v).p = s.p := rfl
@[simp] theorem State.setSP_mem (s : State) (v : Byte) : (s.setSP v).mem = s.mem := rfl
@[simp] theorem State.setSP_io (s : State) (v : Byte) : (s.setSP v).io = s.io := rfl
@[simp] theorem State.setSP_run (s : State) (v : Byte) : (s.setSP v).run = s.run := rfl
@[simp] theorem State.setSP_nmiPending (s : State) (v : Byte) : (s.setSP v).nmiPending = s.nmiPending := rfl
@[simp] theorem State.setSP_irq (s : State) (v : Byte) : (s.setSP v).irq = s.irq := rfl
@[simp] theorem State.setSP_events (s : State) (v : Byte) : (s.setSP v).events = s.events := rfl

@[simp] theorem State.setPC_cfg (s : State) (w : Word) : (s.setPC w).cfg = s.cfg := rfl
@[simp] theorem State.setPC_a (s : State) (w : Word) : (s.setPC w).a = s.a := rfl
@[simp] theorem State.setPC_x (s : State) (w : Word) : (s.setPC w).x = s.x := rfl
@[simp] theorem State.setPC_y (s : State) (w : Word) : (s.setPC w).y = s.y := rfl
@[simp] theorem State.setPC_sp (s : State) (w : Word) : (s.setPC w).sp = s.sp := rfl
@[simp] theorem State.setPC_pc (s : State) (w : Word) : (s.setPC w).pc = w := rfl
@[simp] theorem State.setPC_p (s : State) (w : Word) : (s.setPC w).p = s.p := rfl
@[simp] theorem State.setPC_mem (s : State) (w : Word) : (s.setPC w).mem = s.mem := rfl
@[simp] theorem State.setPC_io (s : State) (w : Word) : (s.setPC w).io = s.io := rfl
@[simp] theorem State.setPC_run (s : State) (w : Word) : (s.setPC w).run = s.run := rfl
@[simp] theorem State.setPC_nmiPending (s : State) (w : Word) : (s.setPC w).nmiPending = s.nmiPending := rfl
@[simp] theorem State.setPC_irq (s : State) (w : Word) : (s.setPC w).irq = s.irq := rfl
@[simp] theorem State.setPC_events (s : State) (w : Word) : (s.setPC w).events = s.events := rfl

@[simp] theorem State.setP_cfg (s : State) (q : Status) : (s.setP q).cfg = s.cfg := rfl
@[simp] theorem State.setP_a (s : State) (q : Status) : (s.setP q).a = s.a := rfl
@[simp] theorem State.setP_x (s : State) (q : Status) : (s.setP q).x = s.x := rfl
@[simp] theorem State.setP_y (s : State) (q : Status) : (s.setP q).y = s.y := rfl
@[simp] theorem State.setP_sp (s : State) (q : Status) : (s.setP q).sp = s.sp := rfl
@[simp] theorem State.setP_pc (s : State) (q : Status) : (s.setP q).pc = s.pc := rfl
@[simp] theorem State.setP_p (s : State) (q : Status) : (s.setP q).p = q := rfl
@[simp] theorem State.setP_mem (s : State) (q : Status) : (s.setP q).mem = s.mem := rfl
@[simp] theorem State.setP_io (s : State) (q : Status) : (s.setP q).io = s.io := rfl
@[simp] theorem State.setP_run (s : State) (q : Status) : (s.setP q).run = s.run := rfl
@[simp] theorem State.setP_nmiPending (s : State) (q : Status) : (s.setP q).nmiPending = s.nmiPending := rfl
@[simp] theorem State.setP_irq (s : State) (q : Status) : (s.setP q).irq = s.irq := rfl
@[simp] theorem State.setP_events (s : State) (q : Status) : (s.setP q).events = s.events := rfl

@[simp] theorem State.setRun_cfg (s : State) (r : RunStatus) : (s.setRun r).cfg = s.cfg := rfl
@[simp] theorem State.setRun_a (s : State) (r : RunStatus) : (s.setRun r).a = s.a := rfl
@[simp] theorem State.setRun_x (s : State) (r : RunStatus) : (s.setRun r).x = s.x := rfl
@[simp] theorem State.setRun_y (s : State) (r : RunStatus) : (s.setRun r).y = s.y := rfl
@[simp] theorem State.setRun_sp (s : State) (r : RunStatus) : (s.setRun r).sp = s.sp := rfl
@[simp] theorem State.setRun_pc (s : State) (r : RunStatus) : (s.setRun r).pc = s.pc := rfl
@[simp] theorem State.setRun_p (s : State) (r : RunStatus) : (s.setRun r).p = s.p := rfl
@[simp] theorem State.setRun_mem (s : State) (r : RunStatus) : (s.setRun r).mem = s.mem := rfl
@[simp] theorem State.setRun_io (s : State) (r : RunStatus) : (s.setRun r).io = s.io := rfl
@[simp] theorem State.setRun_run (s : State) (r : RunStatus) : (s.setRun r).run = r := rfl
@[simp] theorem State.setRun_nmiPending (s : State) (r : RunStatus) : (s.setRun r).nmiPending = s.nmiPending := rfl
@[simp] theorem State.setRun_irq (s : State) (r : RunStatus) : (s.setRun r).irq = s.irq := rfl
@[simp] theorem State.setRun_events (s : State) (r : RunStatus) : (s.setRun r).events = s.events := rfl

@[simp] theorem State.setNmiPending_cfg (s : State) (b : Bool) : (s.setNmiPending b).cfg = s.cfg := rfl
@[simp] theorem State.setNmiPending_a (s : State) (b : Bool) : (s.setNmiPending b).a = s.a := rfl
@[simp] theorem State.setNmiPending_x (s : State) (b : Bool) : (s.setNmiPending b).x = s.x := rfl
@[simp] theorem State.setNmiPending_y (s : State) (b : Bool) : (s.setNmiPending b).y = s.y := rfl
@[simp] theorem State.setNmiPending_sp (s : State) (b : Bool) : (s.setNmiPending b).sp = s.sp := rfl
@[simp] theorem State.setNmiPending_pc (s : State) (b : Bool) : (s.setNmiPending b).pc = s.pc := rfl
@[simp] theorem State.setNmiPending_p (s : State) (b : Bool) : (s.setNmiPending b).p = s.p := rfl
@[simp] theorem State.setNmiPending_mem (s : State) (b : Bool) : (s.setNmiPending b).mem = s.mem := rfl
@[simp] theorem State.setNmiPending_io (s : State) (b : Bool) : (s.setNmiPending b).io = s.io := rfl
@[simp] theorem State.setNmiPending_run (s : State) (b : Bool) : (s.setNmiPending b).run = s.run := rfl
@[simp] theorem State.setNmiPending_nmiPending (s : State) (b : Bool) : (s.setNmiPending b).nmiPending = b := rfl
@[simp] theorem State.setNmiPending_irq (s : State) (b : Bool) : (s.setNmiPending b).irq = s.irq := rfl
@[simp] theorem State.setNmiPending_events (s : State) (b : Bool) : (s.setNmiPending b).events = s.events := rfl

@[simp] theorem State.poke_cfg (s : State) (a : Word) (v : Byte) : (s.poke a v).cfg = s.cfg := rfl
@[simp] theorem State.poke_a (s : State) (a : Word) (v : Byte) : (s.poke a v).a = s.a := rfl
@[simp] theorem State.poke_x (s : State) (a : Word) (v : Byte) : (s.poke a v).x = s.x := rfl
@[simp] theorem State.poke_y (s : State) (a : Word) (v : Byte) : (s.poke a v).y = s.y := rfl
@[simp] theorem State.poke_sp (s : State) (a : Word) (v : Byte) : (s.poke a v).sp = s.sp := rfl
@[simp] theorem State.poke_pc (s : State) (a : Word) (v : Byte) : (s.poke a v).pc = s.pc := rfl
@[simp] theorem State.poke_p (s : State) (a : Word) (v : Byte) : (s.poke a v).p = s.p := rfl
@[simp] theorem State.poke_mem (s : State) (a : Word) (v : Byte) : (s.poke a v).mem = s.mem.write a.toNat v := rfl
@[simp] theorem State.poke_io (s : State) (a : Word) (v : Byte) : (s.poke a v).io = s.io := rfl
@[simp] theorem State.poke_run (s : State) (a : Word) (v : Byte) : (s.poke a v).run = s.run := rfl
@[simp] theorem State.poke_nmiPending (s : State) (a : Word) (v : Byte) : (s.poke a v).nmiPending = s.nmiPending := rfl
@[simp] theorem State.poke_irq (s : State) (a : Word) (v : Byte) : (s.poke a v).irq = s.irq := rfl
@[simp] theorem State.poke_events (s : State) (a : Word) (v : Byte) : (s.poke a v).events = s.events := rfl

@[simp] theorem State.touchSwitch_cfg (s : State) (io : RouterFlags) (e : BusEvent) :
    (s.touchSwitch io e).cfg = s.cfg := rfl
@[simp] theorem State.touchSwitch_a (s : State) (io : RouterFlags) (e : BusEvent) :
    (s.touchSwitch io e).a = s.a := rfl
@[simp] theorem State.touchSwitch_x (s : State) (io : RouterFlags) (e : BusEvent) :
    (s.touchSwitch io e).x = s.x := rfl
@[simp] theorem State.touchSwitch_y (s : State) (io : RouterFlags) (e : BusEvent) :
    (s.touchSwitch io e).y = s.y := rfl
@[simp] theorem State.touchSwitch_sp (s : State) (io : RouterFlags) (e : BusEvent) :
    (s.touchSwitch io e).sp = s.sp := rfl
@[simp] theorem State.touchSwitch_pc (s : State) (io : RouterFlags) (e : BusEvent) :
    (s.touchSwitch io e).pc = s.pc := rfl
@[simp] theorem State.touchSwitch_p (s : State) (io : RouterFlags) (e : BusEvent) :
    (s.touchSwitch io e).p = s.p := rfl
@[simp] theorem State.touchSwitch_mem (s : State) (io : RouterFlags) (e : BusEvent) :
    (s.touchSwitch io e).mem = s.mem := rfl
@[simp] theorem State.touchSwitch_io (s : State) (io : RouterFlags) (e : BusEvent) :
    (s.touchSwitch io e).io = io := rfl
@[simp] theorem State.touchSwitch_run (s : State) (io : RouterFlags) (e : BusEvent) :
    (s.touchSwitch io e).run = s.run := rfl
@[simp] theorem State.touchSwitch_nmiPending (s : State) (io : RouterFlags) (e : BusEvent) :
    (s.touchSwitch io e).nmiPending = s.nmiPending := rfl
@[simp] theorem State.touchSwitch_irq (s : State) (io : RouterFlags) (e : BusEvent) :
    (s.touchSwitch io e).irq = s.irq := rfl
@[simp] theorem State.touchSwitch_events (s : State) (io : RouterFlags) (e : BusEvent) :
    (s.touchSwitch io e).events = s.events ++ [e] := rfl

end Sys2Proof.Machine
end

