-- ==== Sys2Proof/Laws/Ops.lean ====
section
/-! SUPPORT. One law per shared operation that says everything it can do: the bus, the stack, exception entry and
return. Later proofs cite these and do not unfold the operations. -/

namespace Sys2Proof.Machine

/-! ### MEM through `peek` and `poke` -/

theorem State.peek_poke (s : State) (a b : Word) (v : Byte) :
    (s.poke a v).peek b = if b = a then v else s.peek b := by
  simp [State.peek, Memory.read_write, BitVec.toNat_inj]

@[simp] theorem State.peek_poke_same (s : State) (a : Word) (v : Byte) : (s.poke a v).peek a = v := by
  simp [State.peek_poke]

theorem State.peek_poke_other (s : State) {a b : Word} (v : Byte) (h : b ≠ a) :
    (s.poke a v).peek b = s.peek b := by
  simp [State.peek_poke, h]

/-- `peek` looks at `mem` alone. -/
theorem State.peek_congr {s t : State} (h : t.mem = s.mem) (a : Word) : t.peek a = s.peek a := by
  simp [State.peek, h]

/-! ### One bus access -/

/-- A read outside the window: the byte of MEM, and no change (R34). -/
theorem State.readByte_plain {s : State} {a : Word} (h : ¬ inWindow a) : s.readByte a = s.peek a := by
  simp only [State.readByte, if_neg h]

theorem State.afterRead_plain {s : State} {a : Word} (h : ¬ inWindow a) : s.afterRead a = s := by
  simp only [State.afterRead, if_neg h]

/-- A read in the window: the switch's byte, its effect and one notice (R33). -/
theorem State.readByte_window {s : State} {a : Word} (h : inWindow a) :
    s.readByte a = (switchRead s.cfg s.io a).1 := by
  simp only [State.readByte, if_pos h]

theorem State.afterRead_window {s : State} {a : Word} (h : inWindow a) :
    s.afterRead a = s.touchSwitch (switchRead s.cfg s.io a).2 ⟨.read, a, s.readByte a⟩ := by
  simp only [State.afterRead, if_pos h]

/-- A write in the window: the switch's effect and one notice (R33). -/
theorem State.memWrite_window {s : State} {a : Word} (v : Byte) (h : inWindow a) :
    s.memWrite a v = s.touchSwitch (switchWrite s.cfg s.io a v) ⟨.write, a, v⟩ := by
  simp only [State.memWrite, if_pos h]

/-- A write in the vector table is discarded (R35). -/
theorem State.memWrite_vectors {s : State} {a : Word} (v : Byte) (h : inVectors a) : s.memWrite a v = s := by
  have hw : ¬ inWindow a := by simp only [inWindow, inVectors] at *; omega
  simp only [State.memWrite, if_neg hw, State.plainWrite, if_pos h]

/-- A write anywhere else stores its byte (R35). -/
theorem State.memWrite_plain {s : State} {a : Word} (v : Byte) (h : ¬ inWindow a) (h' : ¬ inVectors a) :
    s.memWrite a v = s.poke a v := by
  simp only [State.memWrite, if_neg h, State.plainWrite, if_neg h']

/-- Everything a read can do: nothing, or the router's flags and one notice of a window address. -/
theorem State.afterRead_cases (s : State) (a : Word) :
    (¬ inWindow a ∧ s.afterRead a = s) ∨
    (inWindow a ∧ s.afterRead a =
      s.touchSwitch (switchRead s.cfg s.io a).2 ⟨.read, a, s.readByte a⟩) := by
  by_cases h : inWindow a
  · exact .inr ⟨h, State.afterRead_window h⟩
  · exact .inl ⟨h, State.afterRead_plain h⟩

/-- Everything a write can do. -/
theorem State.memWrite_cases (s : State) (a : Word) (v : Byte) :
    (inWindow a ∧ s.memWrite a v = s.touchSwitch (switchWrite s.cfg s.io a v) ⟨.write, a, v⟩) ∨
    (inVectors a ∧ s.memWrite a v = s) ∨
    (¬ inWindow a ∧ ¬ inVectors a ∧ s.memWrite a v = s.poke a v) := by
  by_cases h : inWindow a
  · exact .inl ⟨h, State.memWrite_window v h⟩
  · by_cases h' : inVectors a
    · exact .inr (.inl ⟨h', State.memWrite_vectors v h'⟩)
    · exact .inr (.inr ⟨h, h', State.memWrite_plain v h h'⟩)

/-! ### The stack: page 1 is plain memory -/

theorem toNat_stackAddr (sp : Byte) : (stackAddr sp).toNat = 256 + sp.toNat := by
  revert sp; decide

theorem stackAddr_notWindow (sp : Byte) : ¬ inWindow (stackAddr sp) := by
  have := sp.isLt
  simp only [inWindow, toNat_stackAddr]
  omega

theorem stackAddr_notVectors (sp : Byte) : ¬ inVectors (stackAddr sp) := by
  have := sp.isLt
  simp only [inVectors, toNat_stackAddr]
  omega

theorem stackAddr_inj {v w : Byte} : stackAddr v = stackAddr w ↔ v = w := by
  rw [← BitVec.toNat_inj, toNat_stackAddr, toNat_stackAddr, ← BitVec.toNat_inj]
  omega

/-- A stack location is no address above page 1. -/
theorem ne_stackAddr {a : Word} (sp : Byte) (h : 512 ≤ a.toNat) : a ≠ stackAddr sp := by
  rintro rfl
  have := sp.isLt
  rw [toNat_stackAddr] at h
  omega

/-- A push stores in page 1 and decrements SP (R56). -/
theorem State.push8_eq (s : State) (v : Byte) :
    s.push8 v = (s.poke (stackAddr s.sp) v).setSP (s.sp - 1) := by
  simp only [State.push8, State.memWrite_plain v (stackAddr_notWindow _) (stackAddr_notVectors _), State.poke_sp]

/-- A pull increments SP (R56). -/
theorem State.afterPull_eq (s : State) : s.afterPull = s.setSP (s.sp + 1) := by
  simp only [State.afterPull, State.afterRead_plain (stackAddr_notWindow _)]

/-- A pull reads page 1 above SP (R56). -/
theorem State.pulledByte_eq (s : State) : s.pulledByte = s.peek (stackAddr (s.sp + 1)) := by
  simp only [State.pulledByte, State.readByte_plain (stackAddr_notWindow _)]
  rfl

/-! ### Exception entry and return -/

/-- A word read outside the window. -/
theorem State.readWord_plain {s : State} {a : Word} (h : ¬ inWindow a) (h' : ¬ inWindow (a + 1)) :
    s.readWord a = joinBytes (s.peek (a + 1)) (s.peek a) := by
  simp only [State.readWord, State.afterRead_plain h, State.readByte_plain h, State.readByte_plain h']

theorem State.afterReadWord_plain {s : State} {a : Word} (h : ¬ inWindow a) (h' : ¬ inWindow (a + 1)) :
    s.afterReadWord a = s := by
  simp only [State.afterReadWord, State.afterRead_plain h, State.afterRead_plain h']

/-- Exception entry through a vector: three bytes stored in page 1, SP lowered by 3, I set, PC from the vector, and
nothing else (R110, R128). -/
theorem State.enterException_eq (s : State) {vector : Word} (brk : Bool)
    (h : 0xFFFA ≤ vector.toNat) (h' : vector.toNat < 0xFFFF) :
    s.enterException vector brk =
      { ((s.poke (stackAddr s.sp) (highByte s.pc)).poke (stackAddr (s.sp - 1)) (lowByte s.pc)).poke
          (stackAddr (s.sp - 2)) (packP s.p brk) with
        sp := s.sp - 3
        p := { s.p with i := true }
        pc := joinBytes (s.peek (vector + 1)) (s.peek vector) } := by
  have hn : (vector + 1).toNat = vector.toNat + 1 := by
    rw [BitVec.toNat_add]
    simp
    omega
  have hv : ¬ inWindow vector := by simp only [inWindow]; omega
  have hv' : ¬ inWindow (vector + 1) := by simp only [inWindow, hn]; omega
  have h2 : s.sp - 1 - 1 = s.sp - 2 := by rw [BitVec.sub_sub]; rfl
  have h3 : s.sp - 2 - 1 = s.sp - 3 := by rw [BitVec.sub_sub]; rfl
  have a1 : ∀ sp, vector ≠ stackAddr sp := fun sp => ne_stackAddr sp (by omega)
  have a2 : ∀ sp, vector + 1 ≠ stackAddr sp := fun sp => ne_stackAddr sp (by omega)
  simp only [State.enterException, State.afterReadWord_plain hv hv', State.readWord_plain hv hv', State.push8_eq,
    State.setSP_sp, State.setSP_pc, State.setSP_p, State.poke_pc, State.poke_p, h2, h3]
  have e : ∀ a, (∀ sp, a ≠ stackAddr sp) →
      ((((((((s.poke (stackAddr s.sp) (highByte s.pc)).setSP (s.sp - 1)).poke (stackAddr (s.sp - 1))
        (lowByte s.pc)).setSP (s.sp - 2)).poke (stackAddr (s.sp - 2)) (packP s.p brk)).setSP (s.sp - 3)).setP
        { s.p with i := true }).peek a) = s.peek a := by
    intro a ha
    simp [State.peek, Memory.read_write, BitVec.toNat_inj, ha]
  rw [e _ a1, e _ a2]
  rfl

/-- Return from an exception: seven flags, PC and SP from page 1, and nothing else (R111). -/
theorem State.returnFromException_eq (s : State) :
    s.returnFromException = { s with
      p := unpackP (s.peek (stackAddr (s.sp + 1)))
      sp := s.sp + 3
      pc := joinBytes (s.peek (stackAddr (s.sp + 3))) (s.peek (stackAddr (s.sp + 2))) } := by
  have h2 : s.sp + 1 + 1 = s.sp + 2 := by rw [BitVec.add_assoc]; rfl
  have h3 : s.sp + 2 + 1 = s.sp + 3 := by rw [BitVec.add_assoc]; rfl
  simp only [State.returnFromException, State.afterPull_eq, State.pulledByte_eq, State.setP_sp, State.setSP_sp, h2, h3]
  rfl

end Sys2Proof.Machine
end

