-- ==== Sys2Proof/Laws/Step.lean ====
section
/-! SUPPORT. What a step can do, said once: the fetch, the effect of each instruction as a closed form, interrupt entry,
and the cases of `step`. -/

namespace Sys2Proof.Machine

/-! ### Effective addresses -/

theorem eaZp_notWindow (zp : Byte) : ¬ inWindow (eaZp zp) := by
  have := zp.isLt
  simp only [inWindow, eaZp, BitVec.toNat_setWidth]
  omega

theorem eaZp_notVectors (zp : Byte) : ¬ inVectors (eaZp zp) := by
  have := zp.isLt
  simp only [inVectors, eaZp, BitVec.toNat_setWidth]
  omega

theorem page1_eq_stackAddr (offset : Byte) : page1 offset = stackAddr offset := by
  revert offset; decide

/-! ### The bus keeps the registers -/

theorem State.afterRead_registers (s : State) (a : Word) :
    s.afterRead a = { s with io := (s.afterRead a).io, events := (s.afterRead a).events } := by
  rcases s.afterRead_cases a with ⟨-, h⟩ | ⟨-, h⟩
  · rw [h]
  · rw [h]; rfl

theorem State.memWrite_registers (s : State) (a : Word) (v : Byte) :
    s.memWrite a v = { s with
      mem := (s.memWrite a v).mem, io := (s.memWrite a v).io, events := (s.memWrite a v).events } := by
  rcases s.memWrite_cases a v with ⟨-, h⟩ | ⟨-, h⟩ | ⟨-, -, h⟩ <;> rw [h] <;> rfl

@[simp] theorem State.afterRead_mem (s : State) (a : Word) : (s.afterRead a).mem = s.mem := by
  rw [State.afterRead_registers]

@[simp] theorem State.afterRead_cfg (s : State) (a : Word) : (s.afterRead a).cfg = s.cfg := by
  rw [State.afterRead_registers]

@[simp] theorem State.afterRead_pc (s : State) (a : Word) : (s.afterRead a).pc = s.pc := by
  rw [State.afterRead_registers]

@[simp] theorem State.peek_afterRead (s : State) (a b : Word) : (s.afterRead a).peek b = s.peek b :=
  State.peek_congr (s.afterRead_mem a) b

/-! ### The fetch -/

/-- The cases of the fetch by the number of operand bytes (R70, R72). -/
theorem State.fetch_of_decodeOp {s : State} {op : Op} (h : decodeOp s.cfg (s.readByte s.pc) = some op) :
    s.fetch = s.afterFetch.fetchOperands op := by
  simp only [State.fetch, h]

theorem State.fetch_of_illegal {s : State} (h : decodeOp s.cfg (s.readByte s.pc) = none) :
    s.fetch = .illegal (s.readByte s.pc) s.afterFetch := by
  simp only [State.fetch, h]

theorem State.afterFetch_plain {s : State} (h : ¬ inWindow s.pc) : s.afterFetch = s.setPC (s.pc + 1) := by
  simp only [State.afterFetch, State.afterRead_plain h]

/-- A fetch from plain memory of bytes that decode is that instruction, with PC past the bytes (R70, R72, R73). -/
theorem State.fetch_of_decode {s : State} {i : Instr} {bytes : List Byte}
    (hd : decode s.cfg bytes = .ok i []) (hh : s.holds s.pc bytes) :
    s.fetch = .instr i (s.setPC (s.pc + BitVec.ofNat 16 i.op.fetchLength)) := by
  have e2 : s.pc + 1 + 1 = s.pc + 2 := by rw [BitVec.add_assoc]; rfl
  have e3 : s.pc + 2 + 1 = s.pc + 3 := by rw [BitVec.add_assoc]; rfl
  match bytes, hd, hh with
  | b :: rest, hd, ⟨hw, hb, hh⟩ =>
    cases hop : decodeOp s.cfg b with
    | none => simp [decode, hop] at hd
    | some op =>
      have hop' : decodeOp s.cfg (s.readByte s.pc) = some op := by rw [State.readByte_plain hw, hb, hop]
      have hd' : decodeOperands op rest = .ok i [] := by simpa [decode, hop] using hd
      rw [State.fetch_of_decodeOp hop', State.afterFetch_plain hw]
      unfold decodeOperands at hd'
      unfold State.fetchOperands
      split at hd'
      · next h0 =>
        obtain ⟨rfl, -⟩ := Decoded.ok.inj hd'
        simp [h0, Op.build_op, Op.fetchLength]
      · next b1 rest' h1 =>
        obtain ⟨rfl, rfl⟩ := Decoded.ok.inj hd'
        obtain ⟨hw1, hb1, -⟩ := hh
        have hr1 : (s.setPC (s.pc + 1)).readByte (s.pc + 1) = b1 := by
          rw [State.readByte_plain hw1]; exact hb1
        simp only [h1, Op.build_op, Op.fetchLength, State.setPC_pc, hr1,
          State.afterFetch_plain (s := s.setPC (s.pc + 1)) hw1, e2]
        rfl
      · next b1 b2 rest' h2 =>
        obtain ⟨rfl, rfl⟩ := Decoded.ok.inj hd'
        obtain ⟨hw1, hb1, hw2, hb2, -⟩ := hh
        rw [e2] at hw2 hb2
        have hr1 : (s.setPC (s.pc + 1)).readByte (s.pc + 1) = b1 := by
          rw [State.readByte_plain hw1]; exact hb1
        have ha : (s.setPC (s.pc + 1)).afterFetch = s.setPC (s.pc + 2) := by
          rw [State.afterFetch_plain (s := s.setPC (s.pc + 1)) hw1, State.setPC_pc, e2]; rfl
        have hr2 : (s.setPC (s.pc + 2)).readByte (s.pc + 2) = b2 := by
          rw [State.readByte_plain hw2]; exact hb2
        have ha2 : (s.setPC (s.pc + 2)).afterFetch = s.setPC (s.pc + 3) := by
          rw [State.afterFetch_plain (s := s.setPC (s.pc + 2)) hw2, State.setPC_pc, e3]; rfl
        simp only [h2, Op.build_op, Op.fetchLength, State.setPC_pc, hr1, ha, hr2, ha2]
        rfl
      · simp at hd'

/-! ### The effect of each instruction, as a closed form -/

theorem exec_brk_eq (s : State) :
    exec .brk s = .next { ((s.poke (stackAddr s.sp) (highByte (s.pc + 1))).poke (stackAddr (s.sp - 1))
          (lowByte (s.pc + 1))).poke (stackAddr (s.sp - 2)) (packP s.p true) with
        sp := s.sp - 3
        p := { s.p with i := true }
        pc := joinBytes (s.peek 0xFFFF) (s.peek 0xFFFE) } := by
  simp only [exec, execBrk]
  rw [State.enterException_eq _ _ (by decide) (by decide)]
  rfl

theorem exec_rti_eq (s : State) :
    exec .rti s = .next { s with
      p := unpackP (s.peek (stackAddr (s.sp + 1)))
      sp := s.sp + 3
      pc := joinBytes (s.peek (stackAddr (s.sp + 3))) (s.peek (stackAddr (s.sp + 2))) } := by
  simp only [exec, execRti, State.returnFromException_eq]

/-- Every instruction completes in every state (R66): the only fault is raised at decode (R130). -/
theorem exec_total (i : Instr) (s : State) : ∃ t, exec i s = .next t := by
  cases i <;> exact ⟨_, rfl⟩

/-- A step at plain bytes runs the instruction they spell, or halts on the first (R70, R72, R73, R121). -/
theorem step_plain {s : State} (h : s.atInstruction) (hw : ¬ inWindow s.pc) :
    (decodeOp s.cfg (s.peek s.pc) = none →
      step s = .next { s with run := .halted s.pc (s.peek s.pc) }) ∧
    ∀ op, decodeOp s.cfg (s.peek s.pc) = some op →
      (∀ k, k < op.fetchLength → ¬ inWindow (s.pc + BitVec.ofNat 16 k)) →
      step s = exec (op.build (s.peek (s.pc + 1)) (s.peek (s.pc + 2)))
        (s.setPC (s.pc + BitVec.ofNat 16 op.fetchLength)) := by
  refine ⟨fun hd => ?_, fun op hd hk => ?_⟩
  · rw [← State.readByte_plain hw] at hd
    simp only [step, h.1, h.2, State.fetch_of_illegal hd, State.afterFetch_plain hw, State.readByte_plain hw]
    rfl
  · have e2 : s.pc + 1 + 1 = s.pc + 2 := by rw [BitVec.add_assoc]; rfl
    have e3 : s.pc + 2 + 1 = s.pc + 3 := by rw [BitVec.add_assoc]; rfl
    rw [← State.readByte_plain hw] at hd
    have a1 : ¬ inWindow (s.pc + 1) → (s.setPC (s.pc + 1)).readByte (s.pc + 1) = s.peek (s.pc + 1) ∧
        (s.setPC (s.pc + 1)).afterFetch = s.setPC (s.pc + 2) := fun h1 =>
      ⟨by rw [State.readByte_plain h1]; rfl,
        by rw [State.afterFetch_plain (s := s.setPC (s.pc + 1)) h1, State.setPC_pc, e2]; rfl⟩
    have a2 : ¬ inWindow (s.pc + 2) → (s.setPC (s.pc + 2)).readByte (s.pc + 2) = s.peek (s.pc + 2) ∧
        (s.setPC (s.pc + 2)).afterFetch = s.setPC (s.pc + 3) := fun h2 =>
      ⟨by rw [State.readByte_plain h2]; rfl,
        by rw [State.afterFetch_plain (s := s.setPC (s.pc + 2)) h2, State.setPC_pc, e3]; rfl⟩
    simp only [step, h.1, h.2, State.fetch_of_decodeOp hd, State.afterFetch_plain hw, State.fetchOperands,
      State.setPC_pc]
    unfold Op.fetchLength at hk ⊢
    rcases Op.operandBytes_cases op with h0 | h0 | h0 <;> rw [h0] at hk ⊢
    · rw [Op.build_of_none h0 (s.peek (s.pc + 1)) (s.peek (s.pc + 2))]
      rfl
    · rw [Op.build_of_one h0 (s.peek (s.pc + 1)) (s.peek (s.pc + 2)),
        (a1 (hk 1 (by decide))).1, (a1 (hk 1 (by decide))).2]
      rfl
    · rw [(a1 (hk 1 (by decide))).1, (a1 (hk 1 (by decide))).2]
      simp only [State.setPC_pc, (a2 (hk 2 (by decide))).1, (a2 (hk 2 (by decide))).2]
      rfl

/-! ### The step -/

/-- Everything a step can do from a running state: take an interrupt, halt on an illegal opcode, or execute. -/
theorem step_cases {s : State} (h : s.run = .running) :
    (∃ k, s.interruptDue = some k ∧ step s = .next (s.takeInterrupt k)) ∨
    (s.interruptDue = none ∧ decodeOp s.cfg (s.readByte s.pc) = none ∧
      step s = .next (s.afterFetch.halt s.pc (s.readByte s.pc))) ∨
    (s.interruptDue = none ∧ ∃ op i s1, decodeOp s.cfg (s.readByte s.pc) = some op ∧
      s.fetch = .instr i s1 ∧ step s = exec i s1) := by
  unfold step
  rw [h]
  cases hk : s.interruptDue with
  | some k => exact .inl ⟨k, rfl, rfl⟩
  | none =>
    right
    cases hd : decodeOp s.cfg (s.readByte s.pc) with
    | none => exact .inl ⟨rfl, rfl, by simp only [State.fetch_of_illegal hd]⟩
    | some op =>
      right
      refine ⟨rfl, op, ?_⟩
      rw [State.fetch_of_decodeOp hd]
      unfold State.fetchOperands
      split <;> exact ⟨_, _, rfl, rfl, rfl⟩

theorem step_halted {s : State} {addr : Word} {opcode : Byte} (h : s.run = .halted addr opcode) :
    step s = .fault (.illegalOpcode addr opcode) := by
  simp only [step, h]

/-- A next state comes from a running one. -/
theorem running_of_step {s t : State} (h : step s = .next t) : s.run = .running := by
  cases hr : s.run with
  | running => rfl
  | halted addr opcode => rw [step_halted hr] at h; cases h

end Sys2Proof.Machine
end

