-- ==== Sys2Proof/Laws/Across.lean ====
section
/-! SUPPORT. One induction for every whole-machine rule: a relation that is kept by each bus access and each register
update is kept by every instruction and every step. -/

namespace Sys2Proof.Machine

/-- A relation between earlier and later states that every bus access and every register update keeps. -/
structure KeptAcross (R : State → State → Prop) : Prop where
  refl : ∀ s, R s s
  trans : ∀ {s t u}, R s t → R t u → R s u
  read : ∀ s addr, R s (s.afterRead addr)
  write : ∀ s addr v, R s (s.memWrite addr v)
  registers : ∀ s a x y sp pc p run n,
    R s { s with a := a, x := x, y := y, sp := sp, pc := pc, p := p, run := run, nmiPending := n }

namespace KeptAcross

variable {R : State → State → Prop}

theorem afterFetch (hR : KeptAcross R) (s : State) : R s s.afterFetch :=
  hR.trans (hR.read s s.pc) (hR.registers _ _ _ _ _ _ _ _ _)

theorem push8 (hR : KeptAcross R) (s : State) (v : Byte) : R s (s.push8 v) :=
  hR.trans (hR.write s (stackAddr s.sp) v) (hR.registers _ _ _ _ _ _ _ _ _)

theorem afterPull (hR : KeptAcross R) (s : State) : R s s.afterPull :=
  hR.trans (hR.registers s _ _ _ (s.sp + 1) _ _ _ _) (hR.read _ _)

theorem loadAFrom (hR : KeptAcross R) (s : State) (addr : Word) : R s (s.loadAFrom addr) :=
  hR.trans (hR.read s addr) (hR.registers _ _ _ _ _ _ _ _ _)

theorem enterException (hR : KeptAcross R) (s : State) (vector : Word) (brk : Bool) :
    R s (s.enterException vector brk) := by
  simp only [State.enterException, State.afterReadWord]
  refine hR.trans ?_ (hR.registers _ _ _ _ _ _ _ _ _)
  refine hR.trans (hR.trans ?_ (hR.read _ _)) (hR.read _ _)
  exact hR.trans (hR.trans (hR.trans (hR.push8 _ _) (hR.push8 _ _)) (hR.push8 _ _))
    (hR.registers _ _ _ _ _ _ _ _ _)

theorem returnFromException (hR : KeptAcross R) (s : State) : R s s.returnFromException := by
  simp only [State.returnFromException]
  refine hR.trans ?_ (hR.registers _ _ _ _ _ _ _ _ _)
  exact hR.trans (hR.trans (hR.trans (hR.afterPull _) (hR.registers _ _ _ _ _ _ _ _ _)) (hR.afterPull _))
    (hR.afterPull _)

/-- Kept by every instruction. -/
theorem exec (hR : KeptAcross R) {i : Instr} {s t : State} (h : Machine.exec i s = .next t) : R s t := by
  cases i
  case bneRel rel =>
    simp only [Machine.exec, execBneRel] at h
    cases h
    split
    · exact hR.refl s
    · exact hR.registers ..
  case brk => cases h; exact hR.trans (hR.registers s _ _ _ _ _ _ _ _) (hR.enterException _ _ _)
  case rti => cases h; exact hR.returnFromException s
  all_goals (cases h; first | exact hR.loadAFrom _ _ | exact hR.write _ _ _ | exact hR.registers ..)

/-- Kept by the fetch. -/
theorem fetch (hR : KeptAcross R) {i : Instr} {s t : State} (h : s.fetch = .instr i t) : R s t := by
  unfold State.fetch at h
  split at h
  · cases h
  · unfold State.fetchOperands at h
    split at h <;> cases h
    · exact hR.afterFetch s
    · exact hR.trans (hR.afterFetch s) (hR.afterFetch _)
    · exact hR.trans (hR.trans (hR.afterFetch s) (hR.afterFetch _)) (hR.afterFetch _)

theorem takeInterrupt (hR : KeptAcross R) (s : State) (k : Interrupt) : R s (s.takeInterrupt k) := by
  cases k
  · exact hR.trans (hR.registers s _ _ _ _ _ _ _ _) (hR.enterException _ _ _)
  · exact hR.enterException _ _ _

/-- Kept by every step. -/
theorem step (hR : KeptAcross R) {s t : State} (h : Machine.step s = .next t) : R s t := by
  rcases step_cases (running_of_step h) with ⟨k, -, hs⟩ | ⟨-, -, hs⟩ | ⟨-, op, i, s1, -, hf, hs⟩ <;> rw [hs] at h
  · cases h; exact hR.takeInterrupt s k
  · cases h; exact hR.trans (hR.afterFetch s) (hR.registers _ _ _ _ _ _ _ _ _)
  · exact hR.trans (hR.fetch hf) (hR.exec h)

end KeptAcross

end Sys2Proof.Machine
end

