-- ==== Sys2Proof/Laws/PerInstr.lean ====
section
/-! SUPPORT. Facts about every instruction as syntax, one lemma per constructor. -/

namespace Sys2Proof.Laws.EncodeLength

/-- The encoding has as many bytes as the fetch of the instruction reads, 1 to 3 (R73, R75). -/
def Statement (i : Instr) : Prop :=
  ∀ cfg : Config, (encode cfg i).length = i.op.fetchLength ∧ i.op.fetchLength ≤ 3

theorem ldaImm (imm : Byte) : Statement (.ldaImm imm) := fun _ => ⟨rfl, Op.fetchLength_le _⟩
theorem ldxImm (imm : Byte) : Statement (.ldxImm imm) := fun _ => ⟨rfl, Op.fetchLength_le _⟩
theorem ldyImm (imm : Byte) : Statement (.ldyImm imm) := fun _ => ⟨rfl, Op.fetchLength_le _⟩
theorem cmpImm (imm : Byte) : Statement (.cmpImm imm) := fun _ => ⟨rfl, Op.fetchLength_le _⟩
theorem bneRel (rel : Byte) : Statement (.bneRel rel) := fun _ => ⟨rfl, Op.fetchLength_le _⟩
theorem jmpAbs (addr : Word) : Statement (.jmpAbs addr) := fun _ => ⟨rfl, Op.fetchLength_le _⟩
theorem brk : Statement .brk := fun _ => ⟨rfl, Op.fetchLength_le _⟩
theorem rti : Statement .rti := fun _ => ⟨rfl, Op.fetchLength_le _⟩
theorem tsx : Statement .tsx := fun _ => ⟨rfl, Op.fetchLength_le _⟩
theorem ldaZp (zp : Byte) : Statement (.ldaZp zp) := fun _ => ⟨rfl, Op.fetchLength_le _⟩
theorem ldaAbs (addr : Word) : Statement (.ldaAbs addr) := fun _ => ⟨rfl, Op.fetchLength_le _⟩
theorem ldaAbsX (base : Word) : Statement (.ldaAbsX base) := fun _ => ⟨rfl, Op.fetchLength_le _⟩
theorem staZp (zp : Byte) : Statement (.staZp zp) := fun _ => ⟨rfl, Op.fetchLength_le _⟩
theorem staAbs (addr : Word) : Statement (.staAbs addr) := fun _ => ⟨rfl, Op.fetchLength_le _⟩

end Sys2Proof.Laws.EncodeLength
end

