-- ==== Sys2Proof/Tests/Slice0.lean ====
section
/-! SUPPORT. Tests: expected results are the vectors of spec/95_test_vectors.md (V-…) or are worked out by hand from the
rule named. Then a witness for every statement that has hypotheses. -/

namespace Sys2Proof.Tests

open Sys2Proof.Machine

/-! ### Helpers -/

/-- The reset state with PC at $0800 and some bytes there. -/
def placed (bytes : List Byte) : State := ({ State.reset with pc := 0x0800 }).pokeAll bytes 0x0800

/-- A property of the next state. -/
def nextHas (o : Host.Outcome State Fault Refusal) (f : State → Bool) : Bool :=
  match o with
  | .next t => f t
  | .fault _ => false
  | .refused _ => false

/-- The status with no flag set. -/
def noFlags : Status :=
  { c := false, z := false, i := false, d := false, b := false, v := false, n := false }

/-- The default parameters with the interrupt inputs present. -/
def withInterrupts : Config := { Config.default with pHwInterrupts := true }

/-- A REGISTRY_EXT row: on profile IIe a write to $C001 sets STORE80 and puts its old complement in flag 3; a read gives
STORE80 in bit 7 and flag 3 in bit 0, and clears flag 3. -/
def extRow : ExtRow where
  profile := some .iie
  addr := 0xC001
  entry := .readWrite
    ⟨.bits (.atom (.flag .store80)) (.lit false) (.lit false) (.lit false)
      (.lit false) (.lit false) (.lit false) (.atom (.flag (.ext 3))), [(.ext 3, .lit false)]⟩
    ⟨[(.store80, .lit true), (.ext 3, .not (.atom .store80))]⟩

/-- The default parameters with that row, on the IIe. -/
def withExt : Config := { Config.default with profile := .iie, registryExt := [extRow] }

/-! ### WellFormed: an ill-formed term for each check -/

theorem test_wf_implied_refused :
    (Instr.staAbs 0xC00E).wf { Config.default with pImpliedLoadStore := false } = false := by decide
theorem test_wf_named_kept : (Instr.ldaImm 0).wf { Config.default with pImpliedLoadStore := false } = true := by decide
theorem test_wf_default : Config.default.wf = true := by decide
theorem test_wf_ext : withExt.wf = true := by decide
theorem test_wf_opcode_clash :
    ({ Config.default with opc := { standardOpc with rti := 0x00 } }).opcodesDistinct = false := by decide
theorem test_wf_ext_outside_window :
    ({ Config.default with registryExt := [{ extRow with addr := 0xC100 }] }).extInWindow = false := by decide
theorem test_wf_ext_redefines_fixed :
    ({ Config.default with registryExt := [{ extRow with addr := 0xC00E }] }).extKeepsFixed = false := by decide
theorem test_wf_rstIO_not_canonical :
    ({ Config.default with rstIO := { defaultRstIO with ext := [(2, true), (1, true)] } }).rstIOCanonical = false := by
  decide
theorem test_wf_memory_unsorted : ¬ Memory.wf [(5, 1), (3, 1)] := by decide
theorem test_wf_memory_blank_listed : ¬ Memory.wf [(5, 0)] := by decide
theorem test_wf_memory_beyond : ¬ Memory.wf [(65536, 1)] := by decide

/-! ### Decoding: every row of R71, its bytes written out from the table's bit patterns -/

theorem test_decode_ldaImm : decode Config.default [0b10101001, 0x42] = .ok (.ldaImm 0x42) [] := by decide
theorem test_decode_ldxImm : decode Config.default [0b10100010, 0x52] = .ok (.ldxImm 0x52) [] := by decide
theorem test_decode_ldyImm : decode Config.default [0b10100000, 0x4B] = .ok (.ldyImm 0x4B) [] := by decide
theorem test_decode_cmpImm : decode Config.default [0b11001001, 0x30] = .ok (.cmpImm 0x30) [] := by decide
theorem test_decode_bneRel : decode Config.default [0b11010000, 0xFE] = .ok (.bneRel 0xFE) [] := by decide
theorem test_decode_jmpAbs : decode Config.default [0b01001100, 0x34, 0x12] = .ok (.jmpAbs 0x1234) [] := by decide
theorem test_decode_brk : decode Config.default [0b00000000, 0xFF] = .ok .brk [0xFF] := by decide
theorem test_decode_rti : decode Config.default [0b01000000] = .ok .rti [] := by decide
theorem test_decode_tsx : decode Config.default [0b10111010] = .ok .tsx [] := by decide
theorem test_decode_ldaZp : decode Config.default [0b10100101, 0x10] = .ok (.ldaZp 0x10) [] := by decide
theorem test_decode_ldaAbs : decode Config.default [0b10101101, 0x1E, 0xC0] = .ok (.ldaAbs 0xC01E) [] := by decide
theorem test_decode_ldaAbsX : decode Config.default [0b10111101, 0x01, 0x02] = .ok (.ldaAbsX 0x0201) [] := by decide
theorem test_decode_staZp : decode Config.default [0b10000101, 0x10] = .ok (.staZp 0x10) [] := by decide
theorem test_decode_staAbs : decode Config.default [0b10001101, 0x0F, 0xC0, 7] = .ok (.staAbs 0xC00F) [7] := by decide
theorem test_decode_illegal : decode Config.default [0xEA] = .rejected (.illegalOpcode 0xEA) := by decide
theorem test_decode_truncated : decode Config.default [0x4C, 0x00] = .rejected (.truncated .jmpAbs) := by decide
theorem test_decode_empty : decode Config.default [] = .rejected .noBytes := by decide
theorem test_decode_implied_off :
    decode { Config.default with pImpliedLoadStore := false } [0x8D, 0, 0] = .rejected (.illegalOpcode 0x8D) := by
  decide
theorem test_decode_other_opc :
    decode { Config.default with opc := { standardOpc with tsx := 0xFF } } [0xFF] = .ok .tsx [] := by decide
theorem test_tableWord_jmp : decodeTableWord 24 0x12344C = some (.jmpAbs 0x1234) := by decide
theorem test_tableWord_brk : decodeTableWord 16 0xFF00 = some .brk := by decide
theorem test_tableWord_short : decodeTableWord 8 0xA9 = some (.ldaImm 0) := by decide
theorem test_withFetchWord_runs :
    nextHas (step (State.reset.withFetchWord 24 0xC00F8D)) (fun t => t.io.altchar && t.pc == 3) = true := by decide

/-! ### Loads (V-LD, V-LM) -/

/-- V-LD-2. -/
theorem test_ldaImm_zero : nextHas (step { placed [0xA9, 0x00] with a := 0x55 })
    (fun t => t.a == 0 && t.p.z && !t.p.n && t.pc == 0x0802) = true := by decide
/-- V-LD-9: the fetch wraps from $FFFF to $0000. -/
theorem test_ldaImm_fetch_wraps :
    nextHas (step ({ State.reset with pc := 0xFFFF }.pokeAll [0xA9, 0x7F] 0xFFFF))
      (fun t => t.a == 0x7F && !t.p.z && !t.p.n && t.pc == 0x0001) = true := by decide
/-- V-LD-5. -/
theorem test_ldxImm : nextHas (step (placed [0xA2, 0x52]))
    (fun t => t.x == 0x52 && t.a == 0 && t.y == 0 && t.pc == 0x0802) = true := by decide
/-- V-LD-8. -/
theorem test_ldyImm : nextHas (step (placed [0xA0, 0x80]))
    (fun t => t.y == 0x80 && !t.p.z && t.p.n) = true := by decide
/-- V-LM-1. -/
theorem test_ldaZp : nextHas (step ((placed [0xA5, 0x10]).poke 0x0010 0x80))
    (fun t => t.a == 0x80 && t.p.n && !t.p.z && t.pc == 0x0802) = true := by decide
/-- V-LM-3: the operand's low byte comes first. -/
theorem test_ldaAbs_order : nextHas (step ((placed [0xAD, 0x34, 0x12]).poke 0x1234 0x7F))
    (fun t => t.a == 0x7F && !t.p.n && t.pc == 0x0803) = true := by decide
/-- V-LM-4: a flag read through the router, with its notice. -/
theorem test_ldaAbs_altchar :
    nextHas (step { placed [0xAD, 0x1E, 0xC0] with io := { defaultRstIO with altchar := true } })
      (fun t => t.a == 0x80 && t.p.n && !t.p.z && t.io.altchar && t.events == [⟨.read, 0xC01E, 0x80⟩]) = true := by decide
/-- V-LM-8: the carry goes into the high byte. -/
theorem test_ldaAbsX_carry :
    nextHas (step ((({ placed [0xBD, 0x01, 0x01] with x := 0xFF }).poke 0x0200 0xAA).poke 0x0100 0x55))
      (fun t => t.a == 0xAA && t.p.n && t.x == 0xFF) = true := by decide
/-- V-LM-10: the indexed address falls in the window and clears the strobe. -/
theorem test_ldaAbsX_window :
    nextHas (step { placed [0xBD, 0xF0, 0xBF] with x := 0x20, io := { defaultRstIO with kbdstrobe := true } })
      (fun t => !t.io.kbdstrobe && t.a == 0 && t.p.z) = true := by decide

/-! ### Stores (V-ST) -/

/-- V-ST-1. -/
theorem test_staZp : nextHas (step { placed [0x85, 0x10] with a := 0x42 })
    (fun t => t.peek 0x0010 == 0x42 && t.p == defaultRstP && t.pc == 0x0802) = true := by decide
/-- V-ST-5, V-ST-6: $C000 clears STORE80, $C073 changes nothing. -/
theorem test_staAbs_switches :
    nextHas (step { placed [0x8D, 0x00, 0xC0] with io := { defaultRstIO with store80 := true } })
      (fun t => !t.io.store80) = true ∧
    nextHas (step { placed [0x8D, 0x73, 0xC0] with io := { defaultRstIO with banksel := true } })
      (fun t => t.io.banksel && t.pc == 0x0803) = true := by decide
/-- V-ST-7, V-ST-10: the vector table is not writable, the byte below it is. -/
theorem test_staAbs_vectors :
    nextHas (step { placed [0x8D, 0xFE, 0xFF] with a := 0x12 }) (fun t => t.peek 0xFFFE == 0) = true ∧
    nextHas (step { placed [0x8D, 0xF9, 0xFF] with a := 0xAB }) (fun t => t.peek 0xFFF9 == 0xAB) = true := by decide

/-! ### Compare, branch, jump (V-CMP, V-BR, V-JMP) -/

/-- R100's table: less, yet N = 0. -/
theorem test_cmpImm_less : nextHas (step { placed [0xC9, 0xFF] with a := 0x00 })
    (fun t => !t.p.c && !t.p.z && !t.p.n && t.a == 0) = true := by decide
/-- V-CMP-16, V-CMP-12: the old carry is no borrow, V and D stay. -/
theorem test_cmpImm_equal :
    nextHas (step { placed [0xC9, 0x30] with a := 0x30, p := { noFlags with v := true, d := true } })
      (fun t => t.p.c && t.p.z && !t.p.n && t.p.v && t.p.d) = true := by decide
/-- V-BR-6: backward. -/
theorem test_bneRel_backward : nextHas (step ({ State.reset with pc := 0x0400 }.pokeAll [0xD0, 0x80] 0x0400))
    (fun t => t.pc == 0x0382) = true := by decide
/-- V-BR-7, V-BR-9: the target wraps; not taken with Z set. -/
theorem test_bneRel_wraps :
    nextHas (step ({ State.reset with pc := 0xFFF0 }.pokeAll [0xD0, 0x20] 0xFFF0)) (fun t => t.pc == 0x0012) = true ∧
    nextHas (step { placed [0xD0, 0x7F] with p := { noFlags with z := true } }) (fun t => t.pc == 0x0802) = true := by
  decide
/-- V-JMP-3: the operand fetch wraps to $0000. -/
theorem test_jmpAbs_wraps :
    nextHas (step ({ State.reset with pc := 0xFFFE }.pokeAll [0x4C, 0x00, 0x08] 0xFFFE)) (fun t => t.pc == 0x0800) = true := by
  decide

/-! ### BRK, RTI, TSX (V-BRK, V-RTI, V-TSX) -/

/-- V-BRK-3: wrapping stack, N V D Z C set. -/
theorem test_brk_wraps :
    nextHas (step ({ State.reset with
        pc := 0x0600, sp := 0x01
        p := { noFlags with n := true, v := true, d := true, z := true, c := true } }.pokeAll [0x00, 0x07] 0xFFFE))
      (fun t => t.peek 0x0101 == 0x06 && t.peek 0x0100 == 0x02 && t.peek 0x01FF == 0xFB && t.sp == 0xFE &&
        t.pc == 0x0700 && t.p.i && t.p.d && !t.p.b) = true := by decide
/-- V-ILL-5: a fetch from $C010 clears the strobe and reads $00, BRK, with return address $C012. -/
theorem test_brk_in_window :
    nextHas (step { State.reset with pc := 0xC010, sp := 0xFF, io := { defaultRstIO with kbdstrobe := true } })
      (fun t => !t.io.kbdstrobe && t.peek 0x01FF == 0xC0 && t.peek 0x01FE == 0x12) = true := by decide
/-- V-RTI-2: wrapping pull, all seven flags. -/
theorem test_rti_wraps :
    nextHas (step (({ placed [0x40] with sp := 0xFD }.pokeAll [0xFF, 0x34] 0x01FE).poke 0x0100 0x12))
      (fun t => t.p.n && t.p.v && t.p.b && t.p.d && t.p.i && t.p.z && t.p.c && t.pc == 0x1234 && t.sp == 0) = true := by
  decide
/-- V-RTI-4: bit 5 is ignored. -/
theorem test_rti_bit5 : nextHas (step ({ placed [0x40] with sp := 0xF0 }.poke 0x01F1 0x20))
    (fun t => t.p == noFlags) = true := by decide
/-- V-TSX-1. -/
theorem test_tsx : nextHas (step { placed [0xBA] with sp := 0xFC })
    (fun t => t.x == 0xFC && t.p.n && !t.p.z && t.sp == 0xFC && t.pc == 0x0801) = true := by decide

/-! ### Faults, interrupts, the host (V-ILL, V-INT, V-RST, V-IO-18) -/

/-- V-ILL-1. -/
theorem test_illegal_halts : nextHas (step { placed [0xEA] with a := 1 })
    (fun t => t.pc == 0x0800 && t.run == .halted 0x0800 0xEA && t.a == 1) = true ∧
    stepReport (placed [0xEA]) = ⟨0, .illegalOpcode 0x0800 0xEA⟩ := by decide
/-- V-INT-1. -/
theorem test_irq_entry :
    nextHas (step ({ State.reset with
        cfg := withInterrupts, pc := 0x1234, sp := 0xFF, irq := true
        p := { noFlags with z := true, c := true } }.pokeAll [0x00, 0x09] 0xFFFE))
      (fun t => t.peek 0x01FF == 0x12 && t.peek 0x01FE == 0x34 && t.peek 0x01FD == 0x23 && t.sp == 0xFC && t.p.i &&
        t.pc == 0x0900) = true := by decide
/-- V-INT-3: NMI above IRQ, not masked. -/
theorem test_nmi_entry :
    nextHas (step ({ State.reset with
        cfg := withInterrupts, pc := 0x1234, sp := 0xFF, irq := true, nmiPending := true }.pokeAll [0x00, 0x0A] 0xFFFA))
      (fun t => t.peek 0x01FD == 0x24 && !t.nmiPending && t.sp == 0xFC && t.pc == 0x0A00) = true := by decide
/-- V-RST-1, V-RST-2. -/
theorem test_reset :
    let t := ((State.reset.halt 0x0502 0xEA).pokeAll [0x00, 0x08] 0xFFFC).hostReset
    t.pc = 0x0800 ∧ t.sp = 0xFD ∧ t.run = .running ∧ t.p = { noFlags with i := true } := by decide
/-- V-IO-18: a loaded byte under the window stands in MEM and is not visible. -/
theorem test_load_under_window :
    ((State.reset.load [0x11] 0xC00E).map fun t => (t.peek 0xC00E, t.readByte 0xC00E)) = some (0x11, 0x00) := by decide
/-- R64: an image past $FFFF is refused. -/
theorem test_load_refused : State.reset.load [1, 2] 0xFFFF = none := by decide
/-- V-IO-17. -/
theorem test_bit7_low_bits : bit7Value 0x7F true = 0xFF ∧ bit7Value 0x7F false = 0x7F := by decide
/-- PackP values of the BRK section. -/
theorem test_packP : packP noFlags true = 0x30 ∧ packP { noFlags with v := true } true = 0x70 ∧
    packP { noFlags with c := true, z := true } false = 0x23 := by decide
/-- R50: a REGISTRY_EXT entry acts for its profile and not for another, and keeps flags of its own. -/
theorem test_registry_ext :
    switchWrite withExt defaultRstIO 0xC001 0x01 = { defaultRstIO with store80 := true, ext := [(3, true)] } ∧
    switchRead withExt { defaultRstIO with store80 := true, ext := [(3, true)] } 0xC001 =
      (0x81, { defaultRstIO with store80 := true }) ∧
    switchWrite { withExt with profile := .iic } defaultRstIO 0xC001 0x01 = defaultRstIO := by decide
/-- R160: the index addition that crosses a page costs 5, a branch to another page 4. -/
theorem test_cycles :
    (stepReport { placed [0xBD, 0xFF, 0x02] with x := 1 }).cycles = 5 ∧
    (stepReport { placed [0xD0, 0x80] with p := noFlags }).cycles = 4 := by decide

/-! ### Witnesses: a state and operands that meet each statement's hypotheses -/

theorem witness_aboutToRun_ldaImm : (placed [0xA9, 0x42]).aboutToRun (.ldaImm 0x42) :=
  ⟨⟨rfl, rfl⟩, by decide, rfl, by decide, by decide, by decide, by decide, trivial⟩
theorem witness_aboutToRun_ldxImm : (placed [0xA2, 0x52]).aboutToRun (.ldxImm 0x52) :=
  ⟨⟨rfl, rfl⟩, by decide, rfl, by decide, by decide, by decide, by decide, trivial⟩
theorem witness_aboutToRun_ldyImm : (placed [0xA0, 0x4B]).aboutToRun (.ldyImm 0x4B) :=
  ⟨⟨rfl, rfl⟩, by decide, rfl, by decide, by decide, by decide, by decide, trivial⟩
theorem witness_aboutToRun_cmpImm : (placed [0xC9, 0x30]).aboutToRun (.cmpImm 0x30) :=
  ⟨⟨rfl, rfl⟩, by decide, rfl, by decide, by decide, by decide, by decide, trivial⟩
theorem witness_aboutToRun_bneRel : (placed [0xD0, 0x80]).aboutToRun (.bneRel 0x80) :=
  ⟨⟨rfl, rfl⟩, by decide, rfl, by decide, by decide, by decide, by decide, trivial⟩
theorem witness_aboutToRun_jmpAbs : (placed [0x4C, 0x34, 0x12]).aboutToRun (.jmpAbs 0x1234) :=
  ⟨⟨rfl, rfl⟩, by decide, rfl, by decide, by decide, by decide, by decide, by decide, by decide, trivial⟩
theorem witness_aboutToRun_brk : (placed [0x00]).aboutToRun .brk :=
  ⟨⟨rfl, rfl⟩, by decide, rfl, by decide, by decide, trivial⟩
theorem witness_aboutToRun_rti : (placed [0x40]).aboutToRun .rti :=
  ⟨⟨rfl, rfl⟩, by decide, rfl, by decide, by decide, trivial⟩
theorem witness_aboutToRun_tsx : (placed [0xBA]).aboutToRun .tsx :=
  ⟨⟨rfl, rfl⟩, by decide, rfl, by decide, by decide, trivial⟩
theorem witness_aboutToRun_ldaZp : (placed [0xA5, 0xFF]).aboutToRun (.ldaZp 0xFF) :=
  ⟨⟨rfl, rfl⟩, by decide, rfl, by decide, by decide, by decide, by decide, trivial⟩
theorem witness_aboutToRun_ldaAbs : (placed [0xAD, 0x1E, 0xC0]).aboutToRun (.ldaAbs 0xC01E) :=
  ⟨⟨rfl, rfl⟩, by decide, rfl, by decide, by decide, by decide, by decide, by decide, by decide, trivial⟩
theorem witness_aboutToRun_ldaAbsX : (placed [0xBD, 0xFF, 0xFF]).aboutToRun (.ldaAbsX 0xFFFF) :=
  ⟨⟨rfl, rfl⟩, by decide, rfl, by decide, by decide, by decide, by decide, by decide, by decide, trivial⟩
theorem witness_aboutToRun_staZp : (placed [0x85, 0x10]).aboutToRun (.staZp 0x10) :=
  ⟨⟨rfl, rfl⟩, by decide, rfl, by decide, by decide, by decide, by decide, trivial⟩
theorem witness_aboutToRun_staAbs : (placed [0x8D, 0xFA, 0xFF]).aboutToRun (.staAbs 0xFFFA) :=
  ⟨⟨rfl, rfl⟩, by decide, rfl, by decide, by decide, by decide, by decide, by decide, by decide, trivial⟩

/-- DecodeOfEncodeIsInstruction, on an implied row. -/
theorem witness_DecodeOfEncode : Config.default.opcodesDistinct = true ∧ (Instr.staAbs 0x1234).wf Config.default = true := by
  decide
/-- EncodeOfDecodeIsBytes. -/
theorem witness_EncodeOfDecode : decode Config.default [0x8D, 0x34, 0x12, 0x00] = .ok (.staAbs 0x1234) [0x00] := by decide
/-- StepRunsDecodedInstruction. -/
theorem witness_StepRunsDecoded : (placed [0xA9, 0x42]).atInstruction ∧
    decode (placed [0xA9, 0x42]).cfg [0xA9, 0x42] = .ok (.ldaImm 0x42) [] ∧
    (placed [0xA9, 0x42]).holds (placed [0xA9, 0x42]).pc [0xA9, 0x42] :=
  ⟨⟨rfl, rfl⟩, by decide, by decide, by decide, by decide, by decide, trivial⟩
/-- FetchGoesThroughRouter: one byte fetched from the window; two and three bytes from plain memory. -/
theorem witness_FetchGoesThroughRouter :
    (∃ s : State, s.atInstruction ∧ inWindow s.pc ∧ decodeOp s.cfg (s.readByte s.pc) = some .brk ∧ Op.brk.fetchLength = 1) ∧
    decodeOp Config.default ((placed [0xA9]).readByte 0x0800) = some .ldaImm ∧ Op.ldaImm.fetchLength = 2 ∧
    decodeOp Config.default ((placed [0x4C]).readByte 0x0800) = some .jmpAbs ∧ Op.jmpAbs.fetchLength = 3 :=
  ⟨⟨{ State.reset with pc := 0xC010 }, ⟨rfl, rfl⟩, by decide, by decide, by decide⟩, by decide, by decide, by decide,
    by decide⟩
/-- IllegalOpcodeHalts: an illegal opcode outside the window; one inside it (IO_DEFAULT $EA); a halted state and a host
move that is no reset. -/
theorem witness_IllegalOpcodeHalts :
    ((placed [0xEA]).atInstruction ∧ ¬ inWindow (placed [0xEA]).pc ∧
      decodeOp (placed [0xEA]).cfg ((placed [0xEA]).readByte (placed [0xEA]).pc) = none) ∧
    (∃ s : State, s.atInstruction ∧ inWindow s.pc ∧ decodeOp s.cfg (s.readByte s.pc) = none) ∧
    (∃ s t : State, s.run = .halted 0x0800 0xEA ∧ s.hostMove .keyEvent = some t) :=
  ⟨⟨⟨rfl, rfl⟩, by decide, by decide⟩,
    ⟨{ State.reset with cfg := { Config.default with ioDefault := 0xEA }, pc := 0xC050 }, ⟨rfl, rfl⟩, by decide, by decide⟩,
    ⟨State.reset.halt 0x0800 0xEA, _, rfl, rfl⟩⟩
/-- RunStateMachine: a running state and a step that answers a next state. -/
theorem witness_RunStateMachine : State.reset.run = .running ∧ ∃ t, step State.reset = .next t := ⟨rfl, _, rfl⟩
/-- TrapStateIsFixed: 4C 00 08 at $0800. -/
theorem witness_TrapStateIsFixed : (placed [0x4C, 0x00, 0x08]).trapped :=
  ⟨⟨rfl, rfl⟩, by decide, by decide, by decide, by decide, by decide, by decide, by decide, trivial⟩
/-- JumpAbsolute's third clause: a jump to its own opcode. -/
theorem witness_JumpToSelf : (placed [0x4C, 0x00, 0x08]).aboutToRun (.jmpAbs (placed [0x4C, 0x00, 0x08]).pc) :=
  ⟨⟨rfl, rfl⟩, by decide, rfl, by decide, by decide, by decide, by decide, by decide, by decide, trivial⟩
/-- MemoryLoads, Stores, PlainMemoryAccess, SwitchesTouchOnlyRouterState: the addresses on both sides of each boundary of the map. -/
theorem witness_AddressMap :
    ¬ inWindow 0xBFFF ∧ inWindow 0xC000 ∧ inWindow 0xC0FF ∧ ¬ inWindow 0xC100 ∧
    ¬ inVectors 0xFFF9 ∧ inVectors 0xFFFA ∧ inVectors 0xFFFF ∧ ¬ inWindow 0xFFFA := by decide
/-- BranchNotEqual: Z clear and Z set. -/
theorem witness_BranchNotEqual : State.reset.p.z = false ∧ ({ State.reset with p := { noFlags with z := true } }).p.z = true := by
  decide
/-- BrkIsNotMaskable: a BRK at PC with I set and irq low; with I clear, the next step fetches it too. -/
theorem witness_BrkIsNotMaskable :
    (placed [0x00]).aboutToRun .brk ∧ (placed [0x00]).p.i = true ∧ (placed [0x00]).irq = false ∧
    ({ placed [0x00] with p := { (placed [0x00]).p with i := false } }).interruptDue = none ∧
    (0x0200 : Word) ∉ storeAddrs .brk (placed [0x00]) :=
  ⟨witness_aboutToRun_brk, by decide, rfl, by decide, by decide⟩
/-- BrkThenRtiReturns: P5's shape, handler $0700. -/
theorem witness_BrkThenRti :
    let s := (placed [0x00]).pokeAll [0x00, 0x07] 0xFFFE |>.poke 0x0700 0x40
    s.aboutToRun .brk ∧ ¬ inWindow (s.peek 0xFFFF ++ s.peek 0xFFFE) ∧
    s.peek 0xFFFF ++ s.peek 0xFFFE ∉ [page1 s.sp, page1 (s.sp - 1), page1 (s.sp - 2)] ∧
    s.peek (s.peek 0xFFFF ++ s.peek 0xFFFE) = s.cfg.opc.rti :=
  ⟨⟨⟨rfl, rfl⟩, by decide, rfl, by decide, by decide, trivial⟩, by decide, by decide, by decide⟩
/-- MemoryFrame and the other frames: an instruction that stores, an address outside its store. -/
theorem witness_MemoryFrame : (∃ t, exec .brk State.reset = .next t) ∧ (0x0200 : Word) ∉ storeAddrs .brk State.reset :=
  ⟨⟨_, rfl⟩, by decide⟩
/-- FlagsChangeOnlyAsListed, RegistersChangeOnlyAsListed, ControlStateFrame: an RTI that changes I, B and PC, an LDX that
changes X, and a load from the window that changes the strobe. -/
theorem witness_Frames :
    nextHas (exec .rti (State.reset.poke 0x01FE 0x10)) (fun t => t.p.i != State.reset.p.i && t.p.b != State.reset.p.b) = true ∧
    nextHas (exec (.ldxImm 1) State.reset) (fun t => t.x != State.reset.x) = true ∧
    nextHas (exec (.ldaAbs 0xC010) State.reset.keyEvent) (fun t => t.io != State.reset.keyEvent.io) = true := by decide
/-- UnmappedSwitchIsNoOp: $C048 in both directions, a read of $C00E, a write of $C01E. -/
theorem witness_Unmapped : inWindow 0xC048 ∧ unmappedRead Config.default 0xC048 = true ∧
    unmappedWrite Config.default 0xC048 = true ∧ unmappedRead Config.default 0xC00E = true ∧
    unmappedWrite Config.default 0xC01E = true := by decide
/-- RegistryHasSevenFixedEntries, WriteSwitches, ReadSwitches, NothingRaisesStrobeOrStore80: no extension; the fixed
addresses. -/
theorem witness_NoExt : Config.default.registryExt = [] ∧ (∃ t, step State.reset = .next t) ∧
    (0xC073 : Word) ∈ [0xC000, 0xC00E, 0xC00F, 0xC073] ∧ (0xC011 : Word) ∈ [0xC010, 0xC011] ∧
    (0xC000 : Word) ∈ [0xC000, 0xC073] :=
  ⟨rfl, ⟨_, rfl⟩, by decide, by decide, by decide⟩
/-- StoreIsSeenByNextFetch: STA abs and STA zp of the byte at PC: an illegal opcode, and opcodes of one, two and three
bytes; and a stored operand byte, the first and the second, of instructions that stand at PC. -/
theorem witness_StoreIsSeen :
    ¬ inWindow 0x0300 ∧ ¬ inVectors 0x0300 ∧ (0x0010 : Word) = (0 : Byte) ++ (0x10 : Byte) ∧
    (∃ t, exec (.staAbs 0x0300) { State.reset with a := 0xEA, pc := 0x0300 } = .next t ∧ t.atInstruction ∧
      ¬ inWindow t.pc ∧ decodeOp t.cfg 0xEA = none) ∧
    (∃ t, exec (.staZp 0x10) { State.reset with a := 0xBA, pc := 0x0010 } = .next t ∧ t.atInstruction ∧
      decodeOp t.cfg 0xBA = some .tsx ∧ Op.tsx.fetchLength = 1) ∧
    (∃ t, exec (.staZp 0x10) { State.reset with a := 0xA9, pc := 0x0010 } = .next t ∧ t.atInstruction ∧
      decodeOp t.cfg 0xA9 = some .ldaImm ∧ Op.ldaImm.fetchLength = 2) ∧
    (∃ t, exec (.staAbs 0x0300) { State.reset with a := 0x4C, pc := 0x0300 } = .next t ∧ t.atInstruction ∧
      decodeOp t.cfg 0x4C = some .jmpAbs ∧ Op.jmpAbs.fetchLength = 3) ∧
    nextHas (exec (.staAbs 0x0801) { placed [0xA9, 0x00] with a := 0x42 })
      (fun t => nextHas (step t) (fun u => u.a == 0x42 && !u.p.z)) = true ∧
    nextHas (exec (.staAbs 0x0802) { placed [0x4C, 0x34, 0x00] with a := 0x12 })
      (fun t => nextHas (step t) (fun u => u.pc == 0x1234)) = true :=
  ⟨by decide, by decide, by decide, ⟨_, rfl, ⟨rfl, rfl⟩, by decide, by decide⟩,
    ⟨_, rfl, ⟨rfl, rfl⟩, by decide, by decide⟩, ⟨_, rfl, ⟨rfl, rfl⟩, by decide, by decide⟩,
    ⟨_, rfl, ⟨rfl, rfl⟩, by decide, by decide⟩, by decide, by decide⟩
/-- RegistryHasSevenFixedEntries' third and fourth clauses: on the IIe the row comes after one for the IIgs at the same
address; at another address no row fits. -/
theorem witness_ExtRow :
    (0xC001 : Word) ∉ [0xC000, 0xC00E, 0xC00F, 0xC010, 0xC011, 0xC01E, 0xC073] ∧
    ({ withExt with registryExt := [{ extRow with profile := some .iigs }, extRow] }).registryExt =
      [{ extRow with profile := some .iigs }] ++ extRow :: [] ∧
    (extRow.addr = 0xC001 ∧ extRow.profile = some withExt.profile) ∧
    (∀ r ∈ [{ extRow with profile := some .iigs }], ¬ (r.addr = 0xC001 ∧ (r.profile = none ∨ r.profile = some .iie))) ∧
    (∀ r ∈ withExt.registryExt, ¬ (r.addr = 0xC002 ∧ (r.profile = none ∨ r.profile = some .iie))) := by decide
/-- SwitchKindsAct: an entry of each kind, and none. -/
theorem witness_SwitchKinds :
    inWindow 0xC010 ∧ inWindow 0xC001 ∧
    (∃ r, switchEntry Config.default 0xC010 = some (.read r)) ∧
    (∃ w, switchEntry Config.default 0xC000 = some (.write w)) ∧
    (∃ f, switchEntry Config.default 0xC01E = some (.readBit7 f)) ∧
    (∃ r w, switchEntry withExt 0xC001 = some (.readWrite r w)) ∧
    switchEntry Config.default 0xC048 = none :=
  ⟨by decide, by decide, ⟨_, rfl⟩, ⟨_, rfl⟩, ⟨_, rfl⟩, ⟨_, _, rfl⟩, rfl⟩
/-- EffectsAssignFlags: the last of two assignments of one flag counts, and both look at the flags before the access. -/
theorem witness_EffectsAssignFlags :
    (∀ u ∈ ([(.altchar, .lit true)] : List (RouterFlag × BitExpr RouterFlag)), u.1 ≠ .store80) ∧
    assignAll (flagOf defaultRstIO)
        [(.store80, .lit true), (.store80, .not (.atom .altchar)), (.altchar, .lit true)] defaultRstIO =
      { defaultRstIO with store80 := true, altchar := true } := by decide
/-- OnlyIllegalOpcodeIsFatal: a step that halts, and a step that faults. -/
theorem witness_OnlyIllegalOpcodeIsFatal :
    nextHas (step (placed [0xEA])) (fun t => t.run != .running) = true ∧
    step (State.reset.halt 0x0800 0xEA) = .fault (.illegalOpcode 0x0800 0xEA) := ⟨by decide, rfl⟩
/-- AAndXTouchedOnlyAsListed: an instruction that neither reads nor writes A or X, and an op
of the list of readers. -/
theorem witness_AAndXTouched :
    (∃ t, exec .rti State.reset = .next t) ∧ Instr.rti.op ∉ [Op.ldaImm, .ldaZp, .ldaAbs, .ldaAbsX] ∧
    Instr.rti.op ∉ [Op.ldxImm, .tsx] ∧ Instr.rti.op ∉ [Op.cmpImm, .staZp, .staAbs] ∧ Instr.rti.op ≠ .ldaAbsX ∧
    Op.staAbs ∈ [Op.cmpImm, .staZp, .staAbs] :=
  ⟨⟨_, rfl⟩, by decide, by decide, by decide, by decide, by decide⟩
/-- PlainReadIsPure: the addresses on both sides of the window. -/
theorem witness_PlainRead : ¬ inWindow 0xBFFF ∧ ¬ inWindow 0xC100 := by decide
/-- YIsNeverRead: an instruction that is no LDY and its next state; a step; a step that faults. -/
theorem witness_YIsNeverRead :
    (∃ t, exec .tsx State.reset = .next t) ∧ (∀ imm, Instr.tsx ≠ .ldyImm imm) ∧ (∃ t, step State.reset = .next t) ∧
    step (State.reset.halt 0x0800 0xEA) = .fault (.illegalOpcode 0x0800 0xEA) :=
  ⟨⟨_, rfl⟩, fun _ h => (nomatch h), ⟨_, rfl⟩, rfl⟩
/-- StepNeverChangesVectors, StepOnlyAddsWindowNotices, StepKeepsParameters, StepMovesStackPointerByThree: a step. -/
theorem witness_Step : (∃ t, step State.reset = .next t) ∧ inVectors 0xFFFA := ⟨⟨_, rfl⟩, by decide⟩
/-- OnlyRtiClearsInterruptDisable. -/
theorem witness_RtiClearsI : (placed [0x40]).p.i = true ∧ nextHas (step (placed [0x40])) (fun t => !t.p.i) = true := by decide
/-- MemoryUnderWindowIsUnreachable: two different states; and two that are halted. -/
theorem witness_UnderWindow : State.reset.sameButUnderWindow (State.reset.poke 0xC00E 0x11) ∧
    State.reset ≠ State.reset.poke 0xC00E 0x11 ∧
    (State.reset.halt 0 0xEA).sameButUnderWindow ((State.reset.halt 0 0xEA).poke 0xC00E 0x11) := by
  have key : ∀ s : State, s.mem = [] → s.sameButUnderWindow (s.poke 0xC00E 0x11) := by
    intro s h
    refine ⟨rfl, fun addr ha => ?_⟩
    have hne : addr.toNat ≠ (0xC00E : Word).toNat := by
      intro he
      apply ha
      rw [inWindow, he]
      decide
    simp only [State.peek, State.poke, Memory.read_write_other _ _ hne]
  exact ⟨key _ rfl, by decide, key _ rfl⟩
/-- InterruptEntry: NMI pending; and IRQ high with I clear. -/
theorem witness_InterruptEntry :
    (∃ s : State, s.run = .running ∧ s.cfg.pHwInterrupts = true ∧ s.nmiPending = true) ∧
    (∃ s : State, s.run = .running ∧ s.cfg.pHwInterrupts = true ∧ s.nmiPending = false ∧ s.irq = true ∧ s.p.i = false) :=
  ⟨⟨{ State.reset with cfg := withInterrupts, nmiPending := true }, rfl, rfl, rfl⟩,
    ⟨{ State.reset with cfg := withInterrupts, irq := true, p := noFlags }, rfl, rfl, rfl, rfl, rfl⟩⟩
/-- InterruptPriority, HostInputs: each clause's premise; inputs present and absent. -/
theorem witness_InterruptPriority :
    (State.reset.halt 0x0800 0xEA).run = .halted 0x0800 0xEA ∧ State.reset.cfg.pHwInterrupts = false ∧
    (∃ s : State, s.cfg.pHwInterrupts = true ∧ s.nmiPending = true) ∧
    ∃ s : State, s.cfg.pHwInterrupts = true ∧ s.nmiPending = false :=
  ⟨rfl, rfl, ⟨{ State.reset with cfg := withInterrupts, nmiPending := true }, rfl, rfl⟩,
    ⟨{ State.reset with cfg := withInterrupts }, rfl, rfl⟩⟩
/-- ImageLoad: an image that ends at $FFFF exactly. -/
theorem witness_ImageLoad : ∃ t, State.reset.load [1, 2] 0xFFFE = some t ∧ t.peek 0xFFFF = 2 := ⟨_, rfl, by decide⟩
/-- WordsAreLittleEndian's plain clause, at the wrap of the address space. -/
theorem witness_Words : ¬ inWindow 0xFFFF ∧ ¬ inWindow (0xFFFF + 1) := by decide
/-- CycleCounts: the standard table; an interrupt that is due. -/
theorem witness_CycleCounts : State.reset.cfg.cycles = standardCycles ∧
    (∃ s : State, s.cfg.cycles = standardCycles ∧ s.run = .running ∧ s.interruptDue ≠ none) :=
  ⟨rfl, { State.reset with cfg := withInterrupts, nmiPending := true }, rfl, rfl, by decide⟩
/-- StepKeepsInvariant, HostMovesKeepInvariant: a state that meets the invariant and has listed memory, its step, a move. -/
theorem witness_Invariant :
    (placed [0xA9, 0x42]).Inv ∧ (∃ t, step (placed [0xA9, 0x42]) = .next t) ∧
    ∃ t, (placed [0xA9, 0x42]).hostMove .reset = some t :=
  ⟨⟨by decide, by decide, by decide, fun _ => ⟨rfl, rfl⟩, fun _ _ h => by cases h⟩, ⟨_, rfl⟩, ⟨_, rfl⟩⟩

end Sys2Proof.Tests
end

/-! PROOF. No step changes the parameters or the irq level: an instance of `KeptAcross`, whose three kinds of update
(bus read, bus write, registers) all leave both fields alone. -/

namespace Sys2Proof.Machine

@[simp] theorem State.afterRead_irq (s : State) (a : Word) : (s.afterRead a).irq = s.irq := by
  rw [State.afterRead_registers]

@[simp] theorem State.memWrite_cfg (s : State) (a : Word) (v : Byte) : (s.memWrite a v).cfg = s.cfg := by
  rw [State.memWrite_registers]

@[simp] theorem State.memWrite_irq (s : State) (a : Word) (v : Byte) : (s.memWrite a v).irq = s.irq := by
  rw [State.memWrite_registers]

/-- `t` has the parameters and the irq level of `s`: the fields no step may write (R6, R22). -/
def State.KeepsParameters (s t : State) : Prop := t.cfg = s.cfg ∧ t.irq = s.irq

theorem keptAcross_keepsParameters : KeptAcross State.KeepsParameters where
  refl _ := ⟨rfl, rfl⟩
  trans := fun ⟨hcfg, hirq⟩ ⟨hcfg', hirq'⟩ => ⟨hcfg'.trans hcfg, hirq'.trans hirq⟩
  read s a := ⟨s.afterRead_cfg a, s.afterRead_irq a⟩
  write s a v := ⟨s.memWrite_cfg a v, s.memWrite_irq a v⟩
  registers _ _ _ _ _ _ _ _ _ := ⟨rfl, rfl⟩

/-- Settles O40: `KeepsParameters` is kept by every bus access and register update, so by every step. -/
theorem stepKeepsParameters : Obligations.StepKeepsParameters :=
  fun _ _ h => keptAcross_keepsParameters.step h

end Sys2Proof.Machine

/-! PROOF. What one instruction and one step can do to the registers, said once as inversion lemmas, and the frames,
the stack pointer rule and the invariant that follow from them. -/

namespace Sys2Proof.Machine

/-! ### One instruction -/

/-- A load from memory, as one update of the state (R93-R95). -/
theorem State.loadAFrom_eq (s : State) (addr : Word) :
    s.loadAFrom addr = { s with
      a := s.readByte addr, p := setNZ s.p (s.readByte addr)
      io := (s.afterRead addr).io, events := (s.afterRead addr).events } :=
  congrArg (·.loadA (s.readByte addr)) (s.afterRead_registers addr)

/-- What an instruction of a kind may do to a state: which registers and flags it writes and how SP moves (R10-R17). Of
its bus accesses it says only whether they can change `MEM`, the router's flags and the history. -/
inductive RegisterEffect (s : State) : Op → State → Prop where
  | loadA {op : Op} (hop : op ∈ [.ldaImm, .ldaZp, .ldaAbs, .ldaAbsX]) (v : Byte) (io : RouterFlags)
      (events : List BusEvent) :
      RegisterEffect s op { s with a := v, p := setNZ s.p v, io := io, events := events }
  | loadX {op : Op} (hop : op ∈ [.ldxImm, .tsx]) (v : Byte) :
      RegisterEffect s op { s with x := v, p := setNZ s.p v }
  | loadY (v : Byte) : RegisterEffect s .ldyImm { s with y := v, p := setNZ s.p v }
  | compare (imm : Byte) : RegisterEffect s .cmpImm { s with p := compareFlags s.p s.a imm }
  | jump {op : Op} (hop : op ∈ [.bneRel, .jmpAbs]) (pc : Word) : RegisterEffect s op { s with pc := pc }
  | enter (mem : Memory) (pc : Word) :
      RegisterEffect s .brk { s with mem := mem, sp := s.sp - 3, p := { s.p with i := true }, pc := pc }
  | leave (p : Status) (pc : Word) : RegisterEffect s .rti { s with sp := s.sp + 3, p := p, pc := pc }
  | store {op : Op} (hop : op ∈ [.staZp, .staAbs]) (mem : Memory) (io : RouterFlags) (events : List BusEvent) :
      RegisterEffect s op { s with mem := mem, io := io, events := events }

theorem registerEffect_loadAFrom (s : State) {op : Op} (hop : op ∈ [Op.ldaImm, .ldaZp, .ldaAbs, .ldaAbsX])
    (addr : Word) : RegisterEffect s op (s.loadAFrom addr) := by
  rw [State.loadAFrom_eq]
  exact .loadA hop _ _ _

theorem registerEffect_memWrite (s : State) {op : Op} (hop : op ∈ [Op.staZp, .staAbs]) (addr : Word) (v : Byte) :
    RegisterEffect s op (s.memWrite addr v) := by
  rw [State.memWrite_registers]
  exact .store hop _ _ _

/-- Every instruction has the effect of its kind. -/
theorem registerEffect_exec {i : Instr} {s t : State} (h : exec i s = .next t) : RegisterEffect s i.op t := by
  cases i with
  | ldaImm imm => cases h; exact .loadA (op := .ldaImm) (by decide) imm s.io s.events
  | ldxImm imm => cases h; exact .loadX (op := .ldxImm) (by decide) imm
  | ldyImm imm => cases h; exact .loadY imm
  | cmpImm imm => cases h; exact .compare imm
  | bneRel rel =>
    cases h
    split
    · exact .jump (op := .bneRel) (by decide) s.pc
    · exact .jump (op := .bneRel) (by decide) _
  | jmpAbs addr => cases h; exact .jump (op := .jmpAbs) (by decide) addr
  | brk => rw [exec_brk_eq] at h; cases h; exact .enter _ _
  | rti => rw [exec_rti_eq] at h; cases h; exact .leave _ _
  | tsx => cases h; exact .loadX (op := .tsx) (by decide) s.sp
  | ldaZp zp => cases h; exact registerEffect_loadAFrom s (op := .ldaZp) (by decide) _
  | ldaAbs addr => cases h; exact registerEffect_loadAFrom s (op := .ldaAbs) (by decide) _
  | ldaAbsX base => cases h; exact registerEffect_loadAFrom s (op := .ldaAbsX) (by decide) _
  | staZp zp => cases h; exact registerEffect_memWrite s (op := .staZp) (by decide) _ _
  | staAbs addr => cases h; exact registerEffect_memWrite s (op := .staAbs) (by decide) _ _

namespace RegisterEffect

variable {s t : State} {op : Op}

theorem a_eq (h : RegisterEffect s op t) (hop : op ∉ [Op.ldaImm, .ldaZp, .ldaAbs, .ldaAbsX]) : t.a = s.a := by
  cases h with
  | loadA hop' => exact absurd hop' hop
  | _ => rfl

theorem x_eq (h : RegisterEffect s op t) (hop : op ∉ [Op.ldxImm, .tsx]) : t.x = s.x := by
  cases h with
  | loadX hop' => exact absurd hop' hop
  | _ => rfl

theorem y_eq (h : RegisterEffect s op t) (hop : op ≠ .ldyImm) : t.y = s.y := by
  cases h with
  | loadY => exact absurd rfl hop
  | _ => rfl

theorem sp_brk (h : RegisterEffect s op t) (hop : op = .brk) : t.sp = s.sp - 3 := by
  subst hop
  cases h with
  | enter => rfl
  | loadA hop | loadX hop | jump hop | store hop => exact absurd hop (by decide)

theorem sp_rti (h : RegisterEffect s op t) (hop : op = .rti) : t.sp = s.sp + 3 := by
  subst hop
  cases h with
  | leave => rfl
  | loadA hop | loadX hop | jump hop | store hop => exact absurd hop (by decide)

theorem sp_eq (h : RegisterEffect s op t) (hbrk : op ≠ .brk) (hrti : op ≠ .rti) : t.sp = s.sp := by
  cases h with
  | enter => exact absurd rfl hbrk
  | leave => exact absurd rfl hrti
  | _ => rfl

/-- No instruction halts the machine or touches the interrupt inputs. -/
theorem control_eq (h : RegisterEffect s op t) : t.run = s.run ∧ t.nmiPending = s.nmiPending := by
  cases h <;> exact ⟨rfl, rfl⟩

end RegisterEffect

/-- Settles O21: a load and TSX write N and Z, CMP writes C, Z and N, BRK writes I, and RTI is listed for every flag. -/
theorem flagsChangeOnlyAsListed : Obligations.FlagsChangeOnlyAsListed := by
  intro i s t h
  have he := registerEffect_exec h
  generalize i.op = op at he ⊢
  cases he with
  | loadA hop | loadX hop =>
    have hnz : op ∈ [Op.ldaImm, .ldxImm, .ldyImm, .ldaZp, .ldaAbs, .ldaAbsX, .tsx, .cmpImm, .rti] := by
      simp only [List.mem_cons] at hop ⊢
      tauto
    simp [setNZ, hnz]
  | loadY => simp [setNZ]
  | compare imm => simp [compareFlags]
  | jump | store => simp
  | enter | leave => simp

/-- Settles O22: by the effect of the instruction's kind on A, X, Y and SP. -/
theorem registersChangeOnlyAsListed : Obligations.RegistersChangeOnlyAsListed := by
  intro i s t h
  have he := registerEffect_exec h
  exact ⟨not_imp_comm.1 he.a_eq, not_imp_comm.1 he.x_eq, not_imp_comm.1 he.y_eq, he.sp_brk, he.sp_rti, he.sp_eq⟩

/-! ### One step -/

/-- The fetch of a byte moves PC and may touch a switch, and does nothing else (R70). -/
theorem State.afterFetch_registers (s : State) :
    ∃ pc io events, s.afterFetch = { s with pc := pc, io := io, events := events } :=
  ⟨_, _, _, congrArg (·.setPC (s.pc + 1)) (s.afterRead_registers s.pc)⟩

/-- So does the whole fetch of an instruction. -/
theorem State.fetch_registers {s s1 : State} {i : Instr} (h : s.fetch = .instr i s1) :
    ∃ pc io events, s1 = { s with pc := pc, io := io, events := events } := by
  have hlater : ∀ {u : State}, (∃ pc io events, u = { s with pc := pc, io := io, events := events }) →
      ∃ pc io events, u.afterFetch = { s with pc := pc, io := io, events := events } := by
    rintro _ ⟨pc, io, events, rfl⟩
    exact State.afterFetch_registers _
  unfold State.fetch at h
  split at h
  · cases h
  · unfold State.fetchOperands at h
    split at h <;> cases h
    · exact s.afterFetch_registers
    · exact hlater s.afterFetch_registers
    · exact hlater (hlater s.afterFetch_registers)

/-- Interrupt entry lowers SP by 3, sets I, loads PC and may clear NMI_PENDING; of the rest it changes `MEM` alone
(R128, R129). -/
theorem State.takeInterrupt_registers (s : State) (k : Interrupt) :
    ∃ mem pc n, (n = s.nmiPending ∨ n = false) ∧ s.takeInterrupt k =
      { s with mem := mem, sp := s.sp - 3, p := { s.p with i := true }, pc := pc, nmiPending := n } := by
  cases k with
  | nmi => exact ⟨_, _, false, .inr rfl, State.enterException_eq _ _ (by decide) (by decide)⟩
  | irq => exact ⟨_, _, s.nmiPending, .inl rfl, State.enterException_eq _ _ (by decide) (by decide)⟩

/-- Settles O38: interrupt entry and BRK lower SP by 3, RTI raises it by 3, everything else leaves it. -/
theorem stepMovesStackPointerByThree : Obligations.StepMovesStackPointerByThree := by
  intro s t h
  rcases step_cases (running_of_step h) with ⟨k, -, hs⟩ | ⟨-, -, hs⟩ | ⟨-, op, i, s1, -, hf, hs⟩ <;> rw [hs] at h
  · cases h
    obtain ⟨mem, pc, n, -, hk⟩ := s.takeInterrupt_registers k
    rw [hk]
    exact .inr (.inl rfl)
  · cases h
    obtain ⟨pc, io, events, hf⟩ := s.afterFetch_registers
    rw [hf]
    exact .inl rfl
  · obtain ⟨pc, io, events, rfl⟩ := State.fetch_registers hf
    have he := registerEffect_exec h
    by_cases hbrk : i.op = .brk
    · exact .inr (.inl (he.sp_brk hbrk))
    · by_cases hrti : i.op = .rti
      · exact .inr (.inr (he.sp_rti hrti))
      · exact .inl (he.sp_eq hbrk hrti)

/-- A step leaves NMI_PENDING or clears it (R129); a machine that it halts stands at an illegal opcode (R121). -/
theorem step_control {s t : State} (h : step s = .next t) :
    (t.nmiPending = s.nmiPending ∨ t.nmiPending = false) ∧
    ∀ addr opcode, t.run = .halted addr opcode → t.pc = addr ∧ decodeOp s.cfg opcode = none := by
  have hrun := running_of_step h
  rcases step_cases hrun with ⟨k, -, hs⟩ | ⟨-, hd, hs⟩ | ⟨-, op, i, s1, -, hf, hs⟩ <;> rw [hs] at h
  · cases h
    obtain ⟨mem, pc, n, hn, hk⟩ := s.takeInterrupt_registers k
    rw [hk]
    exact ⟨hn, fun addr opcode hhalt => by cases hrun.symm.trans hhalt⟩
  · cases h
    obtain ⟨pc, io, events, hf⟩ := s.afterFetch_registers
    rw [hf]
    refine ⟨.inl rfl, fun addr opcode hhalt => ?_⟩
    cases hhalt
    exact ⟨rfl, hd⟩
  · obtain ⟨pc, io, events, rfl⟩ := State.fetch_registers hf
    obtain ⟨hrun', hnmi⟩ := (registerEffect_exec h).control_eq
    exact ⟨.inl hnmi, fun addr opcode hhalt => by cases hrun.symm.trans (hrun'.symm.trans hhalt)⟩

/-! ### The invariant -/

/-- The first three parts of `State.Inv`: the sparse stores of the state, and of its parameters, are canonical. -/
structure State.Canonical (s : State) : Prop where
  mem : s.mem.wf
  ext : Cells.Canonical false s.io.ext
  rst : Cells.Canonical false s.cfg.rstIO.ext

theorem State.Canonical.afterRead {s : State} (h : s.Canonical) (addr : Word) : (s.afterRead addr).Canonical := by
  rcases s.afterRead_cases addr with ⟨-, hs⟩ | ⟨-, hs⟩ <;> rw [hs]
  · exact h
  · exact ⟨h.mem, switchRead_ext_canonical _ h.ext _, h.rst⟩

theorem State.Canonical.memWrite {s : State} (h : s.Canonical) (addr : Word) (v : Byte) :
    (s.memWrite addr v).Canonical := by
  rcases s.memWrite_cases addr v with ⟨-, hs⟩ | ⟨-, hs⟩ | ⟨-, -, hs⟩ <;> rw [hs]
  · exact ⟨h.mem, switchWrite_ext_canonical _ h.ext _ v, h.rst⟩
  · exact h
  · exact ⟨Memory.wf_write h.mem _ _, h.ext, h.rst⟩

theorem keptAcross_canonical : KeptAcross fun s t => s.Canonical → t.Canonical where
  refl _ := id
  trans hst htu := htu ∘ hst
  read _ addr h := h.afterRead addr
  write _ addr v h := h.memWrite addr v
  registers _ _ _ _ _ _ _ _ _ h := ⟨h.mem, h.ext, h.rst⟩

/-- Settles O51: every bus access keeps the stores canonical, no step raises an input or changes the parameters, and a
step halts only where it decodes no row. -/
theorem stepKeepsInvariant : Obligations.StepKeepsInvariant := by
  intro s t hinv h
  obtain ⟨hmem, hext, hrst⟩ := keptAcross_canonical.step h ⟨hinv.memCanonical, hinv.extCanonical, hinv.rstCanonical⟩
  obtain ⟨hcfg, hirq⟩ := stepKeepsParameters s t h
  obtain ⟨hnmi, hhalt⟩ := step_control h
  refine ⟨hmem, hext, hrst, fun htied => ?_, ?_⟩
  · obtain ⟨hs, hsirq⟩ := hinv.inputsTied (hcfg ▸ htied)
    exact ⟨hnmi.elim (·.trans hs) id, hirq.trans hsirq⟩
  · rw [hcfg]
    exact hhalt

/-- Settles O52: at the defaults nothing is listed, nothing is raised and the machine runs. -/
theorem resetMeetsInvariant : Obligations.ResetMeetsInvariant where
  memCanonical := Memory.wf_init
  extCanonical := Cells.canonical_nil false
  rstCanonical := Cells.canonical_nil false
  inputsTied _ := ⟨rfl, rfl⟩
  haltedAtOpcode _ _ h := by cases h

/-- Settles O47: the state after reset, read off field by field; no address is listed in memory. -/
theorem resetStateAtDefaults : Obligations.ResetStateAtDefaults :=
  ⟨rfl, rfl, rfl, rfl, rfl, rfl, rfl, rfl, rfl, rfl, rfl, rfl, fun _ => rfl⟩

/-! ### The status byte -/

/-- Pulling undoes pushing, but for the forced break bit (R16). -/
theorem unpackP_packP (p : Status) (b : Bool) : unpackP (packP p b) = { p with b := b } := by
  obtain ⟨h7, h6, -, h4, h3, h2, h1, h0⟩ := getLsbD_byteOfBits p.n p.v true b p.d p.i p.z p.c
  simp only [unpackP, packP, h7, h6, h4, h3, h2, h1, h0]

/-- Bit 5 of a pulled byte is ignored (R16). -/
theorem unpackP_xor_bit5 (v : Byte) : unpackP (v ^^^ 0x20) = unpackP v := by
  simp [unpackP]

/-- Pushing undoes pulling, but for bit 5, which is pushed as 1 (R16). -/
theorem packP_unpackP (v : Byte) : packP (unpackP v) (v.getLsbD 4) = v ||| 0x20 := by
  obtain ⟨h7, h6, h5, h4, h3, h2, h1, h0⟩ := getLsbD_byteOfBits (v.getLsbD 7) (v.getLsbD 6) true (v.getLsbD 4)
    (v.getLsbD 3) (v.getLsbD 2) (v.getLsbD 1) (v.getLsbD 0)
  apply BitVec.eq_of_getLsbD_eq
  intro k hk
  rw [packP, unpackP, BitVec.getLsbD_or]
  interval_cases k <;> simp only [h7, h6, h5, h4, h3, h2, h1, h0] <;> simp

/-- Settles O42: the bits by `getLsbD_byteOfBits`, and the two round trips. -/
theorem statusByteLayout : Obligations.StatusByteLayout := by
  refine ⟨fun p b => ?_, fun v => ⟨unpackP_xor_bit5 v, packP_unpackP v⟩⟩
  obtain ⟨h7, h6, h5, h4, h3, h2, h1, h0⟩ := getLsbD_byteOfBits p.n p.v true b p.d p.i p.z p.c
  exact ⟨h7, h6, h5, h4, h3, h2, h1, h0, unpackP_packP p b⟩

end Sys2Proof.Machine

/-! PROOF. Noninterference. Two states that look alike to the core run side by side: a relation that every primitive
update of both states keeps is kept by every instruction and every step. -/

namespace Sys2Proof.Machine

/-! ### Two states side by side -/

/-- Two states look alike to the core: they agree in all that a fetch, an interrupt, the stack and the flags look at.
A, X, Y, the history and the bytes under the I/O window may differ. -/
structure State.SameView (s t : State) : Prop where
  cfg : t.cfg = s.cfg
  sp : t.sp = s.sp
  pc : t.pc = s.pc
  p : t.p = s.p
  io : t.io = s.io
  run : t.run = s.run
  nmiPending : t.nmiPending = s.nmiPending
  irq : t.irq = s.irq
  peek : ∀ addr : Word, ¬ inWindow addr → t.peek addr = s.peek addr

theorem State.SameView.readByte {s t : State} (h : s.SameView t) (addr : Word) : t.readByte addr = s.readByte addr := by
  by_cases hw : inWindow addr
  · rw [State.readByte_window hw, State.readByte_window hw, h.cfg, h.io]
  · rw [State.readByte_plain hw, State.readByte_plain hw, h.peek addr hw]

theorem State.SameView.interruptDue {s t : State} (h : s.SameView t) : t.interruptDue = s.interruptDue := by
  simp only [State.interruptDue, h.cfg, h.nmiPending, h.irq, h.p]

/-- A relation between two states that look alike, kept by each primitive update made on both. -/
structure KeptAlongside (R : State → State → Prop) : Prop where
  view : ∀ {s t}, R s t → s.SameView t
  setA : ∀ {s t}, R s t → ∀ v, R (s.setA v) (t.setA v)
  setX : ∀ {s t}, R s t → ∀ v, R (s.setX v) (t.setX v)
  setY : ∀ {s t}, R s t → ∀ v, R (s.setY v) (t.setY v)
  setSP : ∀ {s t}, R s t → ∀ v, R (s.setSP v) (t.setSP v)
  setPC : ∀ {s t}, R s t → ∀ w, R (s.setPC w) (t.setPC w)
  setP : ∀ {s t}, R s t → ∀ p, R (s.setP p) (t.setP p)
  setRun : ∀ {s t}, R s t → ∀ r, R (s.setRun r) (t.setRun r)
  setNmiPending : ∀ {s t}, R s t → ∀ b, R (s.setNmiPending b) (t.setNmiPending b)
  poke : ∀ {s t}, R s t → ∀ {addr}, ¬ inWindow addr → ∀ v, R (s.poke addr v) (t.poke addr v)
  touchSwitch : ∀ {s t}, R s t → ∀ io e, R (s.touchSwitch io e) (t.touchSwitch io e)

/-- Two outcomes of one kind: related next states, or the same stop. -/
inductive OutcomesAlike (R : State → State → Prop) :
    Host.Outcome State Fault Refusal → Host.Outcome State Fault Refusal → Prop where
  | next {s t : State} (h : R s t) : OutcomesAlike R (.next s) (.next t)
  | fault (f : Fault) : OutcomesAlike R (.fault f) (.fault f)
  | refused (r : Refusal) : OutcomesAlike R (.refused r) (.refused r)

theorem OutcomesAlike.of_next {R : State → State → Prop} {o o' : Host.Outcome State Fault Refusal} {s : State}
    (h : OutcomesAlike R o o') (ho : o = .next s) : ∃ t, o' = .next t ∧ R s t := by
  cases h with
  | next h => cases ho; exact ⟨_, rfl, h⟩
  | fault | refused => cases ho

theorem OutcomesAlike.of_fault {R : State → State → Prop} {o o' : Host.Outcome State Fault Refusal} {f : Fault}
    (h : OutcomesAlike R o o') (ho : o = .fault f) : o' = .fault f := by
  cases h with
  | fault => exact ho
  | next | refused => cases ho

/-- Two fetches of the same opcode or the same instruction. -/
inductive FetchesAlike (R : State → State → Prop) : Fetched → Fetched → Prop where
  | illegal (opcode : Byte) {s t : State} (h : R s t) : FetchesAlike R (.illegal opcode s) (.illegal opcode t)
  | instr (i : Instr) {s t : State} (h : R s t) : FetchesAlike R (.instr i s) (.instr i t)

namespace KeptAlongside

variable {R : State → State → Prop} {s t : State}

theorem afterRead (hR : KeptAlongside R) (h : R s t) (addr : Word) : R (s.afterRead addr) (t.afterRead addr) := by
  have hv := hR.view h
  by_cases hw : inWindow addr
  · rw [State.afterRead_window hw, State.afterRead_window hw, hv.cfg, hv.io, hv.readByte]
    exact hR.touchSwitch h _ _
  · rw [State.afterRead_plain hw, State.afterRead_plain hw]
    exact h

theorem memWrite (hR : KeptAlongside R) (h : R s t) (addr : Word) (v : Byte) :
    R (s.memWrite addr v) (t.memWrite addr v) := by
  by_cases hw : inWindow addr
  · rw [State.memWrite_window v hw, State.memWrite_window v hw, (hR.view h).cfg, (hR.view h).io]
    exact hR.touchSwitch h _ _
  · by_cases hvec : inVectors addr
    · rw [State.memWrite_vectors v hvec, State.memWrite_vectors v hvec]
      exact h
    · rw [State.memWrite_plain v hw hvec, State.memWrite_plain v hw hvec]
      exact hR.poke h hw v

theorem loadAFrom (hR : KeptAlongside R) (h : R s t) (addr : Word) : R (s.loadAFrom addr) (t.loadAFrom addr) := by
  have hv := hR.view h
  have hr := hR.afterRead h addr
  simp only [State.loadAFrom, State.loadA, hv.readByte, (hR.view hr).p]
  exact hR.setP (hR.setA hr _) _

/-- Exception entry looks at PC, SP, the flags and the vector, all of which the two states share. -/
theorem enterException (hR : KeptAlongside R) (h : R s t) {vector : Word} (brk : Bool)
    (hlo : 0xFFFA ≤ vector.toNat) (hhi : vector.toNat < 0xFFFF) :
    R (s.enterException vector brk) (t.enterException vector brk) := by
  have hv := hR.view h
  have hw : ¬ inWindow vector := by simp only [inWindow]; omega
  have hw' : ¬ inWindow (vector + 1) := by simp only [inWindow]; bv_omega
  rw [State.enterException_eq s brk hlo hhi, State.enterException_eq t brk hlo hhi, hv.sp, hv.pc, hv.p,
    hv.peek _ hw, hv.peek _ hw']
  have hpushed := hR.poke (hR.poke (hR.poke h (stackAddr_notWindow s.sp) (highByte s.pc))
    (stackAddr_notWindow (s.sp - 1)) (lowByte s.pc)) (stackAddr_notWindow (s.sp - 2)) (packP s.p brk)
  exact hR.setPC (hR.setP (hR.setSP hpushed (s.sp - 3)) { s.p with i := true }) _

/-- A return looks at SP and page 1. -/
theorem returnFromException (hR : KeptAlongside R) (h : R s t) : R s.returnFromException t.returnFromException := by
  have hv := hR.view h
  rw [State.returnFromException_eq, State.returnFromException_eq, hv.sp, hv.peek _ (stackAddr_notWindow _),
    hv.peek _ (stackAddr_notWindow _), hv.peek _ (stackAddr_notWindow _)]
  exact hR.setPC (hR.setSP (hR.setP h (unpackP (s.peek (stackAddr (s.sp + 1))))) (s.sp + 3)) _

theorem takeInterrupt (hR : KeptAlongside R) (h : R s t) (k : Interrupt) :
    R (s.takeInterrupt k) (t.takeInterrupt k) := by
  cases k with
  | nmi => exact hR.enterException (hR.setNmiPending h false) false (by decide) (by decide)
  | irq => exact hR.enterException h false (by decide) (by decide)

/-- Kept by every instruction, where the two states agree in A if it reads A and in X if it reads X. -/
theorem exec (hR : KeptAlongside R) (h : R s t) (i : Instr)
    (ha : i.op ∈ [.cmpImm, .staZp, .staAbs] → t.a = s.a) (hx : i.op = .ldaAbsX → t.x = s.x) :
    OutcomesAlike R (Machine.exec i s) (Machine.exec i t) := by
  have hv := hR.view h
  cases i with
  | ldaImm imm =>
    simp only [Machine.exec, execLdaImm, State.loadA, hv.p]
    exact .next (hR.setP (hR.setA h imm) _)
  | ldxImm imm =>
    simp only [Machine.exec, execLdxImm, State.loadX, hv.p]
    exact .next (hR.setP (hR.setX h imm) _)
  | ldyImm imm =>
    simp only [Machine.exec, execLdyImm, State.loadY, hv.p]
    exact .next (hR.setP (hR.setY h imm) _)
  | cmpImm imm =>
    simp only [Machine.exec, execCmpImm, hv.p, ha (by simp [Instr.op])]
    exact .next (hR.setP h _)
  | bneRel rel =>
    simp only [Machine.exec, execBneRel, hv.p, hv.pc]
    split
    · exact .next h
    · exact .next (hR.setPC h _)
  | jmpAbs addr => exact .next (hR.setPC h addr)
  | brk =>
    simp only [Machine.exec, execBrk, hv.pc]
    exact .next (hR.enterException (hR.setPC h _) true (by decide) (by decide))
  | rti => exact .next (hR.returnFromException h)
  | tsx =>
    simp only [Machine.exec, execTsx, State.loadX, hv.p, hv.sp]
    exact .next (hR.setP (hR.setX h _) _)
  | ldaZp zp => exact .next (hR.loadAFrom h _)
  | ldaAbs addr => exact .next (hR.loadAFrom h addr)
  | ldaAbsX base =>
    simp only [Machine.exec, execLdaAbsX, hx rfl]
    exact .next (hR.loadAFrom h _)
  | staZp zp =>
    simp only [Machine.exec, execStaZp, ha (by simp [Instr.op])]
    exact .next (hR.memWrite h _ _)
  | staAbs addr =>
    simp only [Machine.exec, execStaAbs, ha (by simp [Instr.op])]
    exact .next (hR.memWrite h _ _)

theorem afterFetch (hR : KeptAlongside R) (h : R s t) : R s.afterFetch t.afterFetch := by
  simp only [State.afterFetch, (hR.view h).pc]
  exact hR.setPC (hR.afterRead h _) _

theorem fetchOperands (hR : KeptAlongside R) (h : R s t) (op : Op) :
    FetchesAlike R (s.fetchOperands op) (t.fetchOperands op) := by
  have hv := hR.view h
  have hv' := hR.view (hR.afterFetch h)
  simp only [State.fetchOperands, hv.pc, hv.readByte, hv'.pc, hv'.readByte]
  split
  · exact .instr _ h
  · exact .instr _ (hR.afterFetch h)
  · exact .instr _ (hR.afterFetch (hR.afterFetch h))

theorem fetch (hR : KeptAlongside R) (h : R s t) : FetchesAlike R s.fetch t.fetch := by
  have hv := hR.view h
  simp only [State.fetch, hv.cfg, hv.pc, hv.readByte]
  split
  · exact .illegal _ (hR.afterFetch h)
  · exact hR.fetchOperands (hR.afterFetch h) _

/-- Kept by every step, for a relation that keeps A and X equal. -/
theorem step (hR : KeptAlongside R) (ha : ∀ {s t}, R s t → t.a = s.a) (hx : ∀ {s t}, R s t → t.x = s.x)
    (h : R s t) : OutcomesAlike R (Machine.step s) (Machine.step t) := by
  have hv := hR.view h
  have hf := hR.fetch h
  simp only [Machine.step, hv.run, hv.interruptDue, hv.pc]
  generalize s.fetch = f, t.fetch = g at hf ⊢
  cases s.run with
  | halted addr opcode => exact .fault _
  | running =>
    cases s.interruptDue with
    | some k => exact .next (hR.takeInterrupt h k)
    | none =>
      cases hf with
      | illegal opcode h1 => exact .next (hR.setRun (hR.setPC h1 _) _)
      | instr i h1 => exact hR.exec h1 i (fun _ => ha h1) (fun _ => hx h1)

end KeptAlongside

/-! ### The bytes under the I/O window (R20) -/

theorem keptAlongside_sameButUnderWindow : KeptAlongside State.sameButUnderWindow where
  view := fun ⟨h, hpeek⟩ => by rw [h]; exact ⟨rfl, rfl, rfl, rfl, rfl, rfl, rfl, rfl, hpeek⟩
  setA := fun ⟨h, hpeek⟩ v => ⟨congrArg (·.setA v) h, hpeek⟩
  setX := fun ⟨h, hpeek⟩ v => ⟨congrArg (·.setX v) h, hpeek⟩
  setY := fun ⟨h, hpeek⟩ v => ⟨congrArg (·.setY v) h, hpeek⟩
  setSP := fun ⟨h, hpeek⟩ v => ⟨congrArg (·.setSP v) h, hpeek⟩
  setPC := fun ⟨h, hpeek⟩ w => ⟨congrArg (·.setPC w) h, hpeek⟩
  setP := fun ⟨h, hpeek⟩ p => ⟨congrArg (·.setP p) h, hpeek⟩
  setRun := fun ⟨h, hpeek⟩ r => ⟨congrArg (·.setRun r) h, hpeek⟩
  setNmiPending := fun ⟨h, hpeek⟩ b => ⟨congrArg (·.setNmiPending b) h, hpeek⟩
  poke := fun ⟨h, hpeek⟩ addr _ v => ⟨congrArg (·.poke addr v) h, fun b hb => by
    rw [State.peek_poke, State.peek_poke, hpeek b hb]⟩
  touchSwitch := fun ⟨h, hpeek⟩ io e => ⟨congrArg (·.touchSwitch io e) h, hpeek⟩

/-- The bytes of `MEM` under the window are the same in both states. -/
def State.KeepsUnderWindow (s t : State) : Prop := ∀ addr : Word, inWindow addr → t.peek addr = s.peek addr

theorem State.keepsUnderWindow_memWrite (s : State) (addr : Word) (v : Byte) :
    s.KeepsUnderWindow (s.memWrite addr v) := by
  intro b hb
  rcases s.memWrite_cases addr v with ⟨-, h⟩ | ⟨-, h⟩ | ⟨hw, -, h⟩ <;> rw [h]
  · rfl
  · exact s.peek_poke_other v (fun hba => hw (hba ▸ hb))

theorem keptAcross_keepsUnderWindow : KeptAcross State.KeepsUnderWindow where
  refl _ _ _ := rfl
  trans hst htu addr hw := (htu addr hw).trans (hst addr hw)
  read s a addr _ := s.peek_afterRead a addr
  write := State.keepsUnderWindow_memWrite
  registers _ _ _ _ _ _ _ _ _ _ _ := rfl

/-- Settles O37: no access reaches `MEM` under the window, so the relation runs alongside the step; and each of the two
runs keeps the bytes there. -/
theorem memoryUnderWindowIsUnreachable : Obligations.MemoryUnderWindowIsUnreachable := by
  intro s t h
  have halike := keptAlongside_sameButUnderWindow.step (fun h => by rw [h.1]) (fun h => by rw [h.1]) h
  refine ⟨fun s' hs => ?_, fun f => halike.of_fault⟩
  obtain ⟨t', ht, h'⟩ := halike.of_next hs
  exact ⟨t', ht, h', fun addr hw =>
    ⟨keptAcross_keepsUnderWindow.step hs addr hw, keptAcross_keepsUnderWindow.step ht addr hw⟩⟩

/-! ### A, X and Y (R10-R12) -/

/-- The three byte registers that a load writes. -/
inductive LoadReg where
  | a | x | y

/-- One of the three registers set. -/
def State.setReg (s : State) : LoadReg → Byte → State
  | .a, v => s.setA v
  | .x, v => s.setX v
  | .y, v => s.setY v

/-- Two states that differ in one of the three registers alone. -/
def State.SameBut (r : LoadReg) (s t : State) : Prop := ∃ v, t = s.setReg r v

theorem State.SameBut.a_eq {r : LoadReg} {s t : State} (h : s.SameBut r t) (hr : r ≠ .a) : t.a = s.a := by
  obtain ⟨v, rfl⟩ := h
  cases r with
  | a => exact absurd rfl hr
  | x | y => rfl

theorem State.SameBut.x_eq {r : LoadReg} {s t : State} (h : s.SameBut r t) (hr : r ≠ .x) : t.x = s.x := by
  obtain ⟨v, rfl⟩ := h
  cases r with
  | x => exact absurd rfl hr
  | a | y => rfl

/-- An update that does not look at the register, and writes it with the same byte or not at all. -/
theorem State.SameBut.map {r : LoadReg} {s t : State} (h : s.SameBut r t) (f : State → State)
    (hf : ∀ v, ∃ v', f (s.setReg r v) = (f s).setReg r v') : (f s).SameBut r (f t) := by
  obtain ⟨v, rfl⟩ := h
  exact hf v

theorem keptAlongside_sameBut (r : LoadReg) : KeptAlongside (State.SameBut r) where
  view := by
    rintro s _ ⟨v, rfl⟩
    cases r <;> exact ⟨rfl, rfl, rfl, rfl, rfl, rfl, rfl, rfl, fun _ _ => rfl⟩
  setA h w := h.map (·.setA w) fun v => by cases r; exacts [⟨w, rfl⟩, ⟨v, rfl⟩, ⟨v, rfl⟩]
  setX h w := h.map (·.setX w) fun v => by cases r; exacts [⟨v, rfl⟩, ⟨w, rfl⟩, ⟨v, rfl⟩]
  setY h w := h.map (·.setY w) fun v => by cases r; exacts [⟨v, rfl⟩, ⟨v, rfl⟩, ⟨w, rfl⟩]
  setSP h w := h.map (·.setSP w) fun v => ⟨v, by cases r <;> rfl⟩
  setPC h w := h.map (·.setPC w) fun v => ⟨v, by cases r <;> rfl⟩
  setP h p := h.map (·.setP p) fun v => ⟨v, by cases r <;> rfl⟩
  setRun h q := h.map (·.setRun q) fun v => ⟨v, by cases r <;> rfl⟩
  setNmiPending h b := h.map (·.setNmiPending b) fun v => ⟨v, by cases r <;> rfl⟩
  poke h addr _ w := h.map (·.poke addr w) fun v => ⟨v, by cases r <;> rfl⟩
  touchSwitch h io e := h.map (·.touchSwitch io e) fun v => ⟨v, by cases r <;> rfl⟩

/-- Settles O55: the writers of Y by the effect of the instruction's kind; and "differs in Y alone" runs alongside the
step, since the instructions read A and X only. -/
theorem yIsNeverRead : Obligations.YIsNeverRead := by
  have halike : ∀ (s : State) (y : Byte), OutcomesAlike (State.SameBut .y) (step s) (step { s with y := y }) :=
    fun s y => (keptAlongside_sameBut .y).step (fun h => h.a_eq nofun) (fun h => h.x_eq nofun) ⟨y, rfl⟩
  refine ⟨fun imm s => ⟨_, rfl, rfl⟩, fun i s t h hi => ?_, fun s t y h => ?_, fun s y f => (halike s y).of_fault⟩
  · refine (registerEffect_exec h).y_eq fun hop => ?_
    cases i with
    | ldyImm imm => exact hi imm rfl
    | _ => cases hop
  · obtain ⟨_, ht, y', rfl⟩ := (halike s y).of_next h
    exact ⟨y', ht⟩

/-- The effect of an instruction that does not read A, beside another value of A. -/
theorem exec_other_a {i : Instr} {s t : State} (h : exec i s = .next t)
    (hop : i.op ∉ [.cmpImm, .staZp, .staAbs]) (v : Byte) :
    ∃ v', exec i { s with a := v } = .next { t with a := v' } := by
  have halike := (keptAlongside_sameBut .a).exec (s := s) ⟨v, rfl⟩ i (fun hmem => absurd hmem hop) (fun _ => rfl)
  obtain ⟨_, ht, v', rfl⟩ := halike.of_next h
  exact ⟨v', ht⟩

/-- The effect of an instruction that does not read X, beside another value of X. -/
theorem exec_other_x {i : Instr} {s t : State} (h : exec i s = .next t) (hop : i.op ≠ .ldaAbsX) (v : Byte) :
    ∃ v', exec i { s with x := v } = .next { t with x := v' } := by
  have halike := (keptAlongside_sameBut .x).exec (s := s) ⟨v, rfl⟩ i (fun _ => rfl) (fun heq => absurd heq hop)
  obtain ⟨_, ht, v', rfl⟩ := halike.of_next h
  exact ⟨v', ht⟩

/-- An outcome is not a next state that has another value of some part. -/
theorem ne_next_of_part {β : Type} {o : Host.Outcome State Fault Refusal} {t u : State} (part : State → β) (b : β)
    (ho : o = .next u) (hu : part u ≠ b) (ht : part t = b) : o ≠ .next t := by
  rintro rfl
  cases ho
  exact hu ht

/-- CMP reads A: $00 equals $00 and $01 does not. -/
theorem cmpImm_reads_a : ∃ (i : Instr) (s t : State) (v : Byte), i.op = .cmpImm ∧ exec i s = .next t ∧
    ∀ v', exec i { s with a := v } ≠ .next { t with a := v' } :=
  ⟨.cmpImm 0, State.reset, _, 1, rfl, rfl, fun _ => ne_next_of_part (·.p.z) true rfl (by decide) rfl⟩

/-- A store to $0010 reads A: the byte there is A afterwards. -/
theorem staZp_reads_a : ∃ (i : Instr) (s t : State) (v : Byte), i.op = .staZp ∧ exec i s = .next t ∧
    ∀ v', exec i { s with a := v } ≠ .next { t with a := v' } :=
  ⟨.staZp 0x10, State.reset, _, 1, rfl, rfl, fun _ => ne_next_of_part (·.peek 0x0010) 0 rfl (by decide) rfl⟩

/-- So does the store by a word address. -/
theorem staAbs_reads_a : ∃ (i : Instr) (s t : State) (v : Byte), i.op = .staAbs ∧ exec i s = .next t ∧
    ∀ v', exec i { s with a := v } ≠ .next { t with a := v' } :=
  ⟨.staAbs 0x0010, State.reset, _, 1, rfl, rfl, fun _ => ne_next_of_part (·.peek 0x0010) 0 rfl (by decide) rfl⟩

/-- LDA $0010,X reads X: with X = 0 it loads the $00 of $0010, with X = 1 the $01 of $0011. -/
theorem ldaAbsX_reads_x : ∃ (i : Instr) (s t : State) (v : Byte), i.op = .ldaAbsX ∧ exec i s = .next t ∧
    ∀ v', exec i { s with x := v } ≠ .next { t with x := v' } :=
  ⟨.ldaAbsX 0x0010, State.reset.poke 0x0011 1, _, 1, rfl, rfl, fun _ => ne_next_of_part (·.a) 0 rfl (by decide) rfl⟩

/-- Settles O59: the writers by the effect of the instruction's kind, the readers by running two states that differ in
A or in X alone side by side, and for each listed reader a state in which it does read. -/
theorem aAndXTouchedOnlyAsListed : Obligations.AAndXTouchedOnlyAsListed := by
  refine ⟨fun v s => ⟨⟨_, rfl, rfl⟩, _, rfl, rfl⟩, fun i s t h => ?_, fun op hop => ?_, ldaAbsX_reads_x⟩
  · have he := registerEffect_exec h
    exact ⟨he.a_eq, he.x_eq, exec_other_a h, exec_other_x h⟩
  · simp only [List.mem_cons, List.not_mem_nil, or_false] at hop
    rcases hop with rfl | rfl | rfl
    · exact cmpImm_reads_a
    · exact staZp_reads_a
    · exact staAbs_reads_a

end Sys2Proof.Machine

/-! PROOF. One bus access: plain memory, words and the stack; and what the switches do, said once as inversion lemmas
from which the statements about single switches follow. -/

namespace Sys2Proof.Machine

/-! ### Plain memory (R34, R35) -/

/-- Settles O58: a read outside the window leaves the state alone, so the second read is the first. -/
theorem plainReadIsPure : Obligations.PlainReadIsPure := fun s _ h =>
  have hread := State.afterRead_plain h
  ⟨State.readByte_plain h, hread, by rw [hread]⟩

/-- Settles O24: by the laws of a plain read, a discarded write and a stored one. -/
theorem plainMemoryAccess : Obligations.PlainMemoryAccess := fun s addr h =>
  ⟨State.readByte_plain h, State.afterRead_plain h, fun v =>
    ⟨State.memWrite_vectors v, fun hbelow =>
      ⟨State.memWrite_plain v h (Nat.not_le.2 hbelow), s.peek_poke_same addr v, fun _ => s.peek_poke_other v⟩⟩⟩

/-- Settles O33: Read16 joins two bus reads, and both are plain outside the window. -/
theorem wordsAreLittleEndian : Obligations.WordsAreLittleEndian := fun _ _ =>
  ⟨rfl, rfl, fun h h' => ⟨State.readWord_plain h h', State.afterReadWord_plain h h'⟩⟩

/-- Settles O34: a push pokes page 1 at SP and a pull peeks there once SP is back. -/
theorem stackPushAndPull : Obligations.StackPushAndPull := by
  intro s v
  have hback : s.sp - 1 + 1 = s.sp := BitVec.sub_add_cancel s.sp 1
  refine ⟨?_, ?_, s.afterPull_eq, ?_, ?_⟩
  · rw [page1_eq_stackAddr, State.push8_eq]
    rfl
  · rw [page1_eq_stackAddr, State.pulledByte_eq]
  · rw [State.pulledByte_eq, State.push8_eq, State.setSP_sp, hback]
    exact s.peek_poke_same _ v
  · rw [State.afterPull_eq, State.push8_eq]
    exact hback

/-! ### An access in the window, from what the switch does -/

/-- A read in the window: the switch's byte, its flags and the notice of that byte (R33, R51). -/
theorem State.read_of_switchRead {s : State} {addr : Word} {b : Byte} {io : RouterFlags} (hw : inWindow addr)
    (h : switchRead s.cfg s.io addr = (b, io)) :
    s.readByte addr = b ∧ s.afterRead addr = { s with io := io, events := s.events ++ [⟨.read, addr, b⟩] } := by
  have hb : s.readByte addr = b := by rw [State.readByte_window hw, h]
  refine ⟨hb, ?_⟩
  rw [State.afterRead_window hw, hb, h]
  rfl

/-- A write in the window: the switch's flags and the notice of the byte written (R33, R51). -/
theorem State.memWrite_of_switchWrite {s : State} {addr : Word} {v : Byte} {io : RouterFlags} (hw : inWindow addr)
    (h : switchWrite s.cfg s.io addr v = io) :
    s.memWrite addr v = { s with io := io, events := s.events ++ [⟨.write, addr, v⟩] } := by
  rw [State.memWrite_window v hw, h]
  rfl

/-- Settles O30: each access is one `touchSwitch`. -/
theorem switchesTouchOnlyRouterState : Obligations.SwitchesTouchOnlyRouterState := fun _ _ hw =>
  ⟨⟨_, State.afterRead_window hw⟩, fun v => ⟨_, State.memWrite_window v hw⟩⟩

/-- Settles O28: the switch of a direction with no effect returns IO_DEFAULT and the flags as they are. -/
theorem unmappedSwitchIsNoOp : Obligations.UnmappedSwitchIsNoOp := fun s _ hw =>
  ⟨fun h => State.read_of_switchRead hw (switchRead_unmapped h s.io),
    fun h v => State.memWrite_of_switchWrite hw (switchWrite_unmapped h s.io v)⟩

/-- Settles O56: `switchRead` and `switchWrite`, evaluated at the entry of each kind and at none. -/
theorem switchKindsAct : Obligations.SwitchKindsAct := by
  intro s addr v hw
  have reads : ∀ {b io}, switchRead s.cfg s.io addr = (b, io) → _ := State.read_of_switchRead hw
  have writes : ∀ {io}, switchWrite s.cfg s.io addr v = io → _ := State.memWrite_of_switchWrite hw
  exact ⟨fun r he => ⟨reads (by simp only [switchRead, he]), writes (by simp only [switchWrite, he])⟩,
    fun w he => ⟨reads (by simp only [switchRead, he]), writes (by simp only [switchWrite, he])⟩,
    fun f he => ⟨reads (by simp only [switchRead, he, bit7Value]), writes (by simp only [switchWrite, he])⟩,
    fun r w he => ⟨reads (by simp only [switchRead, he]), writes (by simp only [switchWrite, he])⟩,
    fun he => ⟨reads (by simp only [switchRead, he]), writes (by simp only [switchWrite, he])⟩⟩

/-- Settles O57: the last assignment of a flag counts, an unnamed flag stays, and the eight bits are those named. -/
theorem effectsAssignFlags : Obligations.EffectsAssignFlags :=
  ⟨fun _ atoms before after f e io h => flagOf_assignAll_last atoms before after (f, e) io h,
    fun _ atoms updates _ io h => flagOf_assignAll_other atoms updates io h,
    fun _ _ _ _ _ _ _ _ _ _ => getLsbD_byteOfBits _ _ _ _ _ _ _ _⟩

/-! ### The registry (R46, R49, R50) -/

/-- The addresses of the seven fixed switches; `fixedEntry_eq_none` says that they are those of `fixedSwitches`. -/
abbrev fixedAddresses : List Word := [0xC000, 0xC00E, 0xC00F, 0xC010, 0xC011, 0xC01E, 0xC073]

/-- A fixed address has an entry of its own. -/
theorem exists_fixedEntry {addr : Word} (h : addr ∈ fixedAddresses) :
    ∃ e, fixedEntry fixedSwitches addr = some e :=
  Option.ne_none_iff_exists'.1 fun hnone => fixedEntry_eq_none.1 hnone h

/-- With REGISTRY_EXT empty an address beside the seven has no entry. -/
theorem switchEntry_noExt_none {cfg : Config} (h : cfg.registryExt = []) {addr : Word}
    (haddr : addr ∉ fixedAddresses) : switchEntry cfg addr = none := by
  rw [switchEntry_noExt h, fixedEntry_eq_none.2 haddr]

theorem unmappedRead_noExt {cfg : Config} (h : cfg.registryExt = []) (addr : Word) :
    unmappedRead cfg addr = true ↔ addr ∉ [0xC010, 0xC011, 0xC01E] := by
  by_cases hfixed : addr ∈ fixedAddresses
  · simp only [List.mem_cons, List.not_mem_nil, or_false] at hfixed
    rcases hfixed with rfl | rfl | rfl | rfl | rfl | rfl | rfl <;>
      simp [unmappedRead, switchEntry, fixedEntry, fixedSwitches]
  · have hsub : [0xC010, 0xC011, 0xC01E] ⊆ fixedAddresses := by decide
    have hnone := switchEntry_noExt_none h hfixed
    exact iff_of_true (by simp only [unmappedRead, hnone]) fun hmem => hfixed (hsub hmem)

theorem unmappedWrite_noExt {cfg : Config} (h : cfg.registryExt = []) (addr : Word) :
    unmappedWrite cfg addr = true ↔ addr ∉ [0xC000, 0xC00E, 0xC00F, 0xC073] := by
  by_cases hfixed : addr ∈ fixedAddresses
  · simp only [List.mem_cons, List.not_mem_nil, or_false] at hfixed
    rcases hfixed with rfl | rfl | rfl | rfl | rfl | rfl | rfl <;>
      simp [unmappedWrite, switchEntry, fixedEntry, fixedSwitches]
  · have hsub : [0xC000, 0xC00E, 0xC00F, 0xC073] ⊆ fixedAddresses := by decide
    have hnone := switchEntry_noExt_none h hfixed
    exact iff_of_true (by simp only [unmappedWrite, hnone]) fun hmem => hfixed (hsub hmem)

/-- Settles O29: the effects of the seven, which come before REGISTRY_EXT; beside them its first fitting row, or none. -/
theorem registryHasSevenFixedEntries : Obligations.RegistryHasSevenFixedEntries := by
  refine ⟨fun cfg addr h => ⟨unmappedRead_noExt h addr, unmappedWrite_noExt h addr⟩, fun cfg ext addr haddr => ?_,
    fun cfg before after row addr haddr hext hrow hbefore => ?_, fun cfg addr haddr hrows => ?_⟩
  · obtain ⟨e, he⟩ := exists_fixedEntry haddr
    rw [switchEntry_of_fixed _ he, switchEntry_of_fixed _ he]
  · obtain ⟨rfl, hprofile⟩ := hrow
    rw [switchEntry_of_ext cfg (fixedEntry_eq_none.2 haddr), hext]
    exact extEntry_first before after hprofile hbefore
  · rw [switchEntry_of_ext cfg (fixedEntry_eq_none.2 haddr)]
    exact extEntry_none hrows

/-! ### The fixed switches (R39-R45) -/

/-- Everything a read can do to the flags where REGISTRY_EXT is empty: nothing, or clear the strobe. -/
theorem switchRead_noExt_cases {cfg : Config} (h : cfg.registryExt = []) (io : RouterFlags) (addr : Word) :
    (switchRead cfg io addr).2 = io ∨ (switchRead cfg io addr).2 = { io with kbdstrobe := false } := by
  by_cases hmapped : addr ∈ [0xC010, 0xC011, 0xC01E]
  · simp only [List.mem_cons, List.not_mem_nil, or_false] at hmapped
    rcases hmapped with rfl | rfl | rfl
    · exact .inr rfl
    · exact .inl rfl
    · exact .inl rfl
  · rw [switchRead_unmapped ((unmappedRead_noExt h addr).2 hmapped)]
    exact .inl rfl

/-- Everything a write can do to the flags where REGISTRY_EXT is empty: nothing, clear STORE80, or write ALTCHAR. -/
theorem switchWrite_noExt_cases {cfg : Config} (h : cfg.registryExt = []) (io : RouterFlags) (addr : Word)
    (v : Byte) :
    switchWrite cfg io addr v = io ∨ switchWrite cfg io addr v = { io with store80 := false } ∨
      ∃ b, switchWrite cfg io addr v = { io with altchar := b } := by
  by_cases hmapped : addr ∈ [0xC000, 0xC00E, 0xC00F, 0xC073]
  · simp only [List.mem_cons, List.not_mem_nil, or_false] at hmapped
    rcases hmapped with rfl | rfl | rfl | rfl
    · exact .inr (.inl rfl)
    · exact .inr (.inr ⟨false, rfl⟩)
    · exact .inr (.inr ⟨true, rfl⟩)
    · exact .inl rfl
  · rw [switchWrite_unmapped ((unmappedWrite_noExt h addr).2 hmapped)]
    exact .inl rfl

/-- BANKSEL is as before, and neither STORE80 nor the strobe has been raised. -/
structure NothingRaised (io io' : RouterFlags) : Prop where
  banksel : io'.banksel = io.banksel
  store80 : io'.store80 = true → io.store80 = true
  kbdstrobe : io'.kbdstrobe = true → io.kbdstrobe = true

theorem NothingRaised.refl (io : RouterFlags) : NothingRaised io io := ⟨rfl, id, id⟩

theorem NothingRaised.trans {io io' io'' : RouterFlags} (h : NothingRaised io io') (h' : NothingRaised io' io'') :
    NothingRaised io io'' :=
  ⟨h'.banksel.trans h.banksel, h.store80 ∘ h'.store80, h.kbdstrobe ∘ h'.kbdstrobe⟩

theorem nothingRaised_switchRead {cfg : Config} (h : cfg.registryExt = []) (io : RouterFlags) (addr : Word) :
    NothingRaised io (switchRead cfg io addr).2 := by
  rcases switchRead_noExt_cases h io addr with hio | hio <;> rw [hio]
  · exact .refl io
  · exact ⟨rfl, id, nofun⟩

theorem nothingRaised_switchWrite {cfg : Config} (h : cfg.registryExt = []) (io : RouterFlags) (addr : Word)
    (v : Byte) : NothingRaised io (switchWrite cfg io addr v) := by
  rcases switchWrite_noExt_cases h io addr v with hio | hio | ⟨b, hio⟩ <;> rw [hio]
  · exact .refl io
  · exact ⟨rfl, nofun, id⟩
  · exact ⟨rfl, id, id⟩

/-- Settles O25: the entries of $C00E, $C00F and $C01E. -/
theorem altCharSwitches : Obligations.AltCharSwitches := fun s v =>
  ⟨State.memWrite_of_switchWrite (by decide) (switchWrite_C00E s.cfg s.io v),
    State.memWrite_of_switchWrite (by decide) (switchWrite_C00F s.cfg s.io v),
    State.memWrite_of_switchWrite (by decide) (switchWrite_unmapped rfl s.io v),
    State.read_of_switchRead (by decide) (switchRead_unmapped rfl s.io),
    State.read_of_switchRead (by decide) (switchRead_unmapped rfl s.io),
    State.read_of_switchRead (by decide) (switchRead_C01E s.cfg s.io)⟩

/-- Settles O26: the entries of $C000 and $C073; `switchWrite` does not look at the byte; and without extensions no
write raises STORE80 and no read writes it. -/
theorem writeSwitches : Obligations.WriteSwitches := by
  refine ⟨fun s v => ⟨?_, ?_⟩, fun s addr haddr => ?_, fun s addr v w hw => ?_, fun cfg io addr v h => ⟨?_, ?_⟩⟩
  · exact State.memWrite_of_switchWrite (by decide) (switchWrite_C000 s.cfg s.io v)
  · exact State.memWrite_of_switchWrite (by decide) (switchWrite_C073 s.cfg s.io v)
  · have hread : inWindow addr ∧ unmappedRead s.cfg addr = true := by
      simp only [List.mem_cons, List.not_mem_nil, or_false] at haddr
      rcases haddr with rfl | rfl <;> exact ⟨by decide, rfl⟩
    obtain ⟨hbyte, hafter⟩ := State.read_of_switchRead hread.1 (switchRead_unmapped hread.2 s.io)
    exact ⟨hbyte, by rw [hafter]⟩
  · rw [State.memWrite_window v hw, State.memWrite_window w hw]
    rfl
  · exact (nothingRaised_switchWrite h io addr v).store80
  · rcases switchRead_noExt_cases h io addr with hio | hio <;> rw [hio]

/-- Settles O27: the entries of $C010 and $C011; without extensions no switch writes BANKSEL. -/
theorem readSwitches : Obligations.ReadSwitches := by
  refine ⟨fun s => ⟨?_, ?_, ?_⟩, fun s v addr haddr => ?_, fun cfg io addr v h => ⟨?_, ?_⟩⟩
  · exact State.read_of_switchRead (by decide) (switchRead_C010 s.cfg s.io)
  · have hclear : ∀ u : State, (u.afterRead 0xC010).io = { u.io with kbdstrobe := false } := fun u =>
      congrArg State.io (State.read_of_switchRead (by decide) (switchRead_C010 u.cfg u.io)).2
    rw [hclear, hclear]
  · exact State.read_of_switchRead (by decide) (switchRead_C011 s.cfg s.io)
  · have hwrite : inWindow addr ∧ unmappedWrite s.cfg addr = true := by
      simp only [List.mem_cons, List.not_mem_nil, or_false] at haddr
      rcases haddr with rfl | rfl <;> exact ⟨by decide, rfl⟩
    rw [State.memWrite_of_switchWrite hwrite.1 (switchWrite_unmapped hwrite.2 s.io v)]
  · exact (nothingRaised_switchWrite h io addr v).banksel
  · exact (nothingRaised_switchRead h io addr).banksel

/-- Bit 7 of a flag read is the flag (R47). -/
theorem getLsbD_bit7Value (d : Byte) (flag : Bool) : (bit7Value d flag).getLsbD 7 = flag := by
  exact (BitVec.getLsbD_append ..).trans (by simp)

/-- A load of $C01E puts ALTCHAR in N and leaves the flags of the router (R44, R94). -/
theorem State.loadAFrom_C01E (s : State) :
    (s.loadAFrom 0xC01E).p.n = s.io.altchar ∧ (s.loadAFrom 0xC01E).io = s.io := by
  obtain ⟨hbyte, hafter⟩ := State.read_of_switchRead (by decide) (switchRead_C01E s.cfg s.io)
  rw [State.loadAFrom_eq, hbyte, hafter]
  exact ⟨getLsbD_bit7Value _ _, rfl⟩

/-- Settles O31: the store writes ALTCHAR and the load reads it back. -/
theorem altCharReadsBackThroughCpu : Obligations.AltCharReadsBackThroughCpu := by
  have hback : ∀ (s t : State) (b : Bool), t.io = { s.io with altchar := b } →
      (t.loadAFrom 0xC01E).p.n = b ∧ (t.loadAFrom 0xC01E).io = { s.io with altchar := b } := by
    intro s t b hio
    rw [← hio, t.loadAFrom_C01E.1, t.loadAFrom_C01E.2, hio]
    exact ⟨rfl, rfl⟩
  intro s
  obtain ⟨hclear, hset, -⟩ := altCharSwitches s s.a
  exact ⟨⟨_, _, rfl, rfl, hback s _ false (congrArg State.io hclear)⟩,
    ⟨_, _, rfl, rfl, hback s _ true (congrArg State.io hset)⟩⟩

/-- Two states of one choice of parameters, where no REGISTRY_EXT is there to raise a flag. -/
def State.RaisesNothing (s t : State) : Prop :=
  t.cfg = s.cfg ∧ (s.cfg.registryExt = [] → NothingRaised s.io t.io)

theorem keptAcross_raisesNothing : KeptAcross State.RaisesNothing where
  refl s := ⟨rfl, fun _ => .refl s.io⟩
  trans := fun ⟨hcfg, hio⟩ ⟨hcfg', hio'⟩ => ⟨hcfg'.trans hcfg, fun h => (hio h).trans (hio' (hcfg ▸ h))⟩
  read s addr := by
    rcases s.afterRead_cases addr with ⟨-, hs⟩ | ⟨-, hs⟩ <;> rw [hs]
    · exact ⟨rfl, fun _ => .refl s.io⟩
    · exact ⟨rfl, fun h => nothingRaised_switchRead h s.io addr⟩
  write s addr v := by
    rcases s.memWrite_cases addr v with ⟨-, hs⟩ | ⟨-, hs⟩ | ⟨-, -, hs⟩ <;> rw [hs]
    · exact ⟨rfl, fun h => nothingRaised_switchWrite h s.io addr v⟩
    · exact ⟨rfl, fun _ => .refl s.io⟩
    · exact ⟨rfl, fun _ => .refl s.io⟩
  registers s _ _ _ _ _ _ _ _ := ⟨rfl, fun _ => .refl s.io⟩

/-- Settles O32: no bus access raises or writes those flags, so no step does. -/
theorem nothingRaisesStrobeOrStore80 : Obligations.NothingRaisesStrobeOrStore80 := by
  intro s t hext h
  obtain ⟨hbanksel, hstore80, hkbdstrobe⟩ := (keptAcross_raisesNothing.step h).2 hext
  exact ⟨hbanksel, hstore80, hkbdstrobe⟩

end Sys2Proof.Machine

/-! PROOF. What an instruction and a step do to `MEM`, to the history and to RUN; the fetch; and the image load. -/

namespace Sys2Proof.Machine

/-! ### `MEM` across a write (R35) -/

theorem State.peek_memWrite_other (s : State) {addr other : Word} (v : Byte) (h : other ≠ addr) :
    (s.memWrite addr v).peek other = s.peek other := by
  rcases s.memWrite_cases addr v with ⟨-, hs⟩ | ⟨-, hs⟩ | ⟨-, -, hs⟩ <;> rw [hs]
  · rfl
  · exact s.peek_poke_other v h

theorem State.peek_memWrite_vectors (s : State) (addr : Word) (v : Byte) {other : Word} (h : inVectors other) :
    (s.memWrite addr v).peek other = s.peek other := by
  by_cases heq : other = addr
  · rw [State.memWrite_vectors v (heq ▸ h)]
  · exact s.peek_memWrite_other v heq

/-! ### Frames of an instruction -/

namespace RegisterEffect

variable {s t : State} {op : Op}

theorem mem_eq (h : RegisterEffect s op t) (hop : op ∉ [Op.brk, .staZp, .staAbs]) : t.mem = s.mem := by
  cases h with
  | enter => exact absurd List.mem_cons_self hop
  | store hop' => exact absurd (List.mem_cons_of_mem _ hop') hop
  | _ => rfl

theorem pc_eq (h : RegisterEffect s op t) (hop : op ∉ [Op.bneRel, .jmpAbs, .brk, .rti]) : t.pc = s.pc := by
  cases h with
  | jump hop' => exact absurd (List.mem_append_left [.brk, .rti] hop' : _ ∈ [Op.bneRel, .jmpAbs] ++ [.brk, .rti]) hop
  | enter | leave => simp at hop
  | _ => rfl

end RegisterEffect

/-- Settles O20: BRK pokes three bytes, a store writes one, and no other kind of instruction changes `MEM`. -/
theorem memoryFrame : Obligations.MemoryFrame := by
  intro i s t h addr haddr
  cases i with
  | staZp zp => cases h; exact s.peek_memWrite_other _ (List.ne_of_not_mem_cons haddr)
  | staAbs a => cases h; exact s.peek_memWrite_other _ (List.ne_of_not_mem_cons haddr)
  | brk =>
    simp only [storeAddrs, List.mem_cons, List.not_mem_nil, or_false, not_or] at haddr
    obtain ⟨h0, h1, h2⟩ := haddr
    rw [exec_brk_eq] at h
    cases h
    exact (State.peek_poke_other _ _ h2).trans ((State.peek_poke_other _ _ h1).trans (State.peek_poke_other _ _ h0))
  | _ => exact State.peek_congr ((registerEffect_exec h).mem_eq (by simp [Instr.op])) addr

/-- A load outside the window leaves the router alone. -/
theorem State.loadAFrom_router (s : State) {addr : Word} (h : ¬ inWindow addr) :
    (s.loadAFrom addr).io = s.io ∧ (s.loadAFrom addr).events = s.events := by
  rw [State.loadAFrom, State.afterRead_plain h]
  exact ⟨rfl, rfl⟩

/-- So does a store. -/
theorem State.memWrite_router (s : State) {addr : Word} (v : Byte) (h : ¬ inWindow addr) :
    (s.memWrite addr v).io = s.io ∧ (s.memWrite addr v).events = s.events := by
  rcases s.memWrite_cases addr v with ⟨hw, -⟩ | ⟨-, hs⟩ | ⟨-, -, hs⟩
  · exact absurd hw h
  · rw [hs]; exact ⟨rfl, rfl⟩
  · rw [hs]; exact ⟨rfl, rfl⟩

/-- An instruction leaves the router's flags and the history alone, or it is a load or a store in the window. -/
theorem exec_router_cases {i : Instr} {s t : State} (h : exec i s = .next t) :
    (t.io = s.io ∧ t.events = s.events) ∨
    (∃ addr, i = .ldaAbs addr ∧ inWindow addr) ∨
    (∃ base, i = .ldaAbsX base ∧ inWindow (eaAbsX base s.x)) ∨
    (∃ addr, i = .staAbs addr ∧ inWindow addr) := by
  cases i with
  | ldaAbs addr =>
    cases h
    by_cases hw : inWindow addr
    · exact .inr (.inl ⟨addr, rfl, hw⟩)
    · exact .inl (s.loadAFrom_router hw)
  | ldaAbsX base =>
    cases h
    by_cases hw : inWindow (eaAbsX base s.x)
    · exact .inr (.inr (.inl ⟨base, rfl, hw⟩))
    · exact .inl (s.loadAFrom_router hw)
  | staAbs addr =>
    cases h
    by_cases hw : inWindow addr
    · exact .inr (.inr (.inr ⟨addr, rfl, hw⟩))
    · exact .inl (s.memWrite_router _ hw)
  | ldaZp zp => cases h; exact .inl (s.loadAFrom_router (eaZp_notWindow zp))
  | staZp zp => cases h; exact .inl (s.memWrite_router _ (eaZp_notWindow zp))
  | bneRel rel => cases h; split <;> exact .inl ⟨rfl, rfl⟩
  | brk => rw [exec_brk_eq] at h; cases h; exact .inl ⟨rfl, rfl⟩
  | rti => rw [exec_rti_eq] at h; cases h; exact .inl ⟨rfl, rfl⟩
  | ldaImm | ldxImm | ldyImm | cmpImm | jmpAbs | tsx => cases h; exact .inl ⟨rfl, rfl⟩

/-- Settles O23: by the effect of the instruction's kind, the parameters kept, and `exec_router_cases`. -/
theorem controlStateFrame : Obligations.ControlStateFrame := by
  intro i s t h
  obtain ⟨hrun, hnmi⟩ := (registerEffect_exec h).control_eq
  obtain ⟨hcfg, hirq⟩ := keptAcross_keepsParameters.exec h
  refine ⟨hrun, hnmi, hirq, hcfg, not_imp_comm.1 (registerEffect_exec h).pc_eq, fun hne => ?_⟩
  rcases exec_router_cases h with ⟨hio, hevents⟩ | htouch
  · exact absurd hne (by simp [hio, hevents])
  · exact htouch

/-! ### Rules of every step -/

/-- The bytes of the vector table are the same in both states. -/
def State.KeepsVectors (s t : State) : Prop := ∀ addr : Word, inVectors addr → t.peek addr = s.peek addr

theorem keptAcross_keepsVectors : KeptAcross State.KeepsVectors where
  refl _ _ _ := rfl
  trans hst htu addr hv := (htu addr hv).trans (hst addr hv)
  read s a addr _ := s.peek_afterRead a addr
  write s a v _ hv := s.peek_memWrite_vectors a v hv
  registers _ _ _ _ _ _ _ _ _ _ _ := rfl

/-- Settles O36: no bus write reaches the vector table. -/
theorem stepNeverChangesVectors : Obligations.StepNeverChangesVectors :=
  fun _ _ h => keptAcross_keepsVectors.step h

/-- The history has grown by notices of window addresses alone, if at all. -/
def State.AddsWindowNotices (s t : State) : Prop :=
  ∃ added : List BusEvent, t.events = s.events ++ added ∧ ∀ e ∈ added, inWindow e.addr

theorem State.AddsWindowNotices.of_eq {s t : State} (h : t.events = s.events) : s.AddsWindowNotices t :=
  ⟨[], by rw [h, List.append_nil], nofun⟩

theorem State.addsWindowNotices_touchSwitch (s : State) (io : RouterFlags) {e : BusEvent} (h : inWindow e.addr) :
    s.AddsWindowNotices (s.touchSwitch io e) :=
  ⟨[e], rfl, fun _ he => List.mem_singleton.1 he ▸ h⟩

theorem keptAcross_addsWindowNotices : KeptAcross State.AddsWindowNotices where
  refl _ := .of_eq rfl
  trans := by
    rintro s t u ⟨added, ht, hadded⟩ ⟨added', hu, hadded'⟩
    exact ⟨added ++ added', by rw [hu, ht, List.append_assoc],
      fun e he => (List.mem_append.1 he).elim (hadded e) (hadded' e)⟩
  read s addr := by
    rcases s.afterRead_cases addr with ⟨-, hs⟩ | ⟨hw, hs⟩ <;> rw [hs]
    · exact .of_eq rfl
    · exact s.addsWindowNotices_touchSwitch _ hw
  write s addr v := by
    rcases s.memWrite_cases addr v with ⟨hw, hs⟩ | ⟨-, hs⟩ | ⟨-, -, hs⟩ <;> rw [hs]
    · exact s.addsWindowNotices_touchSwitch _ hw
    · exact .of_eq rfl
    · exact .of_eq rfl
  registers _ _ _ _ _ _ _ _ _ := .of_eq rfl

/-- Settles O41: each bus access adds nothing or one notice of its window address. -/
theorem stepOnlyAddsWindowNotices : Obligations.StepOnlyAddsWindowNotices :=
  fun _ _ h => keptAcross_addsWindowNotices.step h

/-! ### The end of a run (R66) -/

@[simp] theorem State.afterRead_run (s : State) (addr : Word) : (s.afterRead addr).run = s.run := by
  rw [State.afterRead_registers]

@[simp] theorem State.memWrite_run (s : State) (addr : Word) (v : Byte) : (s.memWrite addr v).run = s.run := by
  rw [State.memWrite_registers]

/-- A running machine always has a next state. -/
theorem exists_step_of_running {s : State} (h : s.run = .running) : ∃ t, step s = .next t := by
  rcases step_cases h with ⟨_, -, hs⟩ | ⟨-, -, hs⟩ | ⟨-, _, i, s1, -, -, hs⟩ <;> rw [hs]
  · exact ⟨_, rfl⟩
  · exact ⟨_, rfl⟩
  · exact exec_total i s1

/-- A step answers a next state, or the fault of a halted machine. -/
theorem step_outcome (s : State) :
    (∃ t, step s = .next t) ∨
    ∃ addr opcode, s.run = .halted addr opcode ∧ step s = .fault (.illegalOpcode addr opcode) := by
  cases hrun : s.run with
  | running => exact .inl (exists_step_of_running hrun)
  | halted addr opcode => exact .inr ⟨addr, opcode, rfl, step_halted hrun⟩

/-- A step that leaves the machine halted decoded an illegal opcode. -/
theorem illegalOpcode_of_step_halts {s t : State} (h : step s = .next t) (hhalt : t.run ≠ .running) :
    s.interruptDue = none ∧ decodeOp s.cfg (s.readByte s.pc) = none := by
  have hrun := running_of_step h
  rcases step_cases hrun with ⟨k, -, hs⟩ | ⟨hdue, hd, -⟩ | ⟨-, _, i, s1, -, hf, hs⟩
  · obtain ⟨mem, pc, n, -, hk⟩ := s.takeInterrupt_registers k
    rw [hs, hk] at h
    cases h
    exact absurd hrun hhalt
  · exact ⟨hdue, hd⟩
  · rw [hs] at h
    obtain ⟨pc, io, events, rfl⟩ := State.fetch_registers hf
    exact absurd ((registerEffect_exec h).control_eq.1.trans hrun) hhalt

/-- Settles O54: accesses and instructions keep RUN, a running machine has a next state, and a halted one its fault. -/
theorem onlyIllegalOpcodeIsFatal : Obligations.OnlyIllegalOpcodeIsFatal := by
  refine ⟨fun s addr v => ⟨s.afterRead_run addr, s.memWrite_run addr v⟩, fun i s => ?_,
    fun s t => illegalOpcode_of_step_halts, fun s f h => ?_, fun s r h => ?_⟩
  · obtain ⟨t, ht⟩ := exec_total i s
    exact ⟨t, ht, (registerEffect_exec ht).control_eq.1⟩
  · rcases step_outcome s with ⟨t, ht⟩ | ⟨addr, opcode, hrun, hs⟩
    · cases ht.symm.trans h
    · cases hs.symm.trans h
      exact ⟨addr, opcode, rfl, hrun⟩
  · rcases step_outcome s with ⟨t, ht⟩ | ⟨addr, opcode, -, hs⟩
    · cases ht.symm.trans h
    · cases hs.symm.trans h

/-! ### The fetch (R70, R72) -/

theorem step_of_fetch {s s1 : State} {i : Instr} (h : s.atInstruction) (hf : s.fetch = .instr i s1) :
    step s = exec i s1 := by
  obtain ⟨hrun, hdue⟩ := h
  simp only [step, hrun, hdue, hf]

/-- The second byte of a fetch is read at PC + 1. -/
theorem State.afterFetch_afterFetch (s : State) :
    s.afterFetch.afterFetch = (s.afterFetch.afterRead (s.pc + 1)).setPC (s.pc + 2) := by
  have h2 : s.pc + 1 + 1 = s.pc + 2 := BitVec.add_assoc s.pc 1 1
  rw [← h2]
  rfl

/-- The third byte is read at PC + 2. -/
theorem State.afterFetch_afterFetch_afterFetch (s : State) :
    s.afterFetch.afterFetch.afterFetch = (s.afterFetch.afterFetch.afterRead (s.pc + 2)).setPC (s.pc + 3) := by
  have h3 : s.pc + 2 + 1 = s.pc + 3 := BitVec.add_assoc s.pc 2 1
  rw [s.afterFetch_afterFetch, ← h3]
  rfl

theorem State.fetchOperands_none (s : State) {op : Op} (h : op.format.operandBytes = 0) :
    s.fetchOperands op = .instr (op.build 0 0) s := by
  simp only [State.fetchOperands, h]

theorem State.fetchOperands_one (s : State) {op : Op} (h : op.format.operandBytes = 1) :
    s.fetchOperands op = .instr (op.build (s.readByte s.pc) 0) s.afterFetch := by
  simp only [State.fetchOperands, h]

theorem State.fetchOperands_two (s : State) {op : Op} (h : op.format.operandBytes = 2) :
    s.fetchOperands op =
      .instr (op.build (s.readByte s.pc) (s.afterFetch.readByte s.afterFetch.pc)) s.afterFetch.afterFetch := by
  simp only [State.fetchOperands, h]

/-- Settles O6: the opcode is fetched, then the operand bytes of its format, each by `afterFetch`. -/
theorem fetchGoesThroughRouter : Obligations.FetchGoesThroughRouter := by
  intro s op hs hop s1 s2 s3
  have hrun : ∀ {i u}, s.afterFetch.fetchOperands op = .instr i u → step s = exec i u := fun hoperands =>
    step_of_fetch hs ((State.fetch_of_decodeOp hop).trans hoperands)
  unfold Op.fetchLength
  refine ⟨fun hlen => ?_, fun hlen => ?_, fun hlen => ?_⟩
  · exact hrun (s.afterFetch.fetchOperands_none (by omega))
  · have h := hrun (s.afterFetch.fetchOperands_one (by omega))
    rw [s.afterFetch_afterFetch] at h
    exact h
  · have h := hrun (s.afterFetch.fetchOperands_two (by omega))
    rw [s.afterFetch_afterFetch_afterFetch, s.afterFetch_afterFetch] at h
    exact h

/-! ### A store, then a fetch (R58, R61) -/

/-- A zero-page address is its byte under a high byte of zero (R72). -/
theorem eaZp_eq_append (zp : Byte) : eaZp zp = (0 : Byte) ++ zp := by
  simp [eaZp, BitVec.setWidth_eq_append]

/-- Settles O35: the store is a poke of A, which a bus read and the fetch of `step_plain` see. -/
theorem storeIsSeenByNextFetch : Obligations.StoreIsSeenByNextFetch := by
  intro s t i ea hi h byte
  have hpoked : ¬ inWindow ea ∧ t = s.poke ea s.a := by
    rcases hi with ⟨rfl, hw, hv⟩ | ⟨zp, rfl, rfl⟩
    · cases h
      exact ⟨hw, State.memWrite_plain s.a hw hv⟩
    · cases h
      rw [← eaZp_eq_append]
      exact ⟨eaZp_notWindow zp, State.memWrite_plain s.a (eaZp_notWindow zp) (eaZp_notVectors zp)⟩
  obtain ⟨hw, ht⟩ := hpoked
  have hbyte : byte = t.peek := funext fun addr => ht ▸ (s.peek_poke ea addr s.a).symm
  refine ⟨fun u hu => ?_, fun hat hpc => ?_⟩
  · rw [State.readByte_plain hw, State.peek_congr hu, ht, State.peek_poke_same]
  · rw [hbyte]
    exact step_plain hat hpc

/-! ### The image load (R64) -/

/-- A load changes `MEM` alone. -/
theorem State.pokeAll_registers (s : State) (image : List Byte) (base : Word) :
    s.pokeAll image base = { s with mem := (s.pokeAll image base).mem } := by
  induction image generalizing s base with
  | nil => rfl
  | cons b rest ih => exact ih (s.poke base b) (base + 1)

/-- Counting from the next address on. -/
theorem add_ofNat_succ (base : Word) (k : Nat) :
    base + BitVec.ofNat 16 (k + 1) = base + 1 + BitVec.ofNat 16 k := by
  bv_omega

/-- A byte of `MEM` at no address of the image is as before. -/
theorem State.peek_pokeAll_other (s : State) (image : List Byte) (base : Word) {addr : Word}
    (h : ∀ k < image.length, addr ≠ base + BitVec.ofNat 16 k) : (s.pokeAll image base).peek addr = s.peek addr := by
  induction image generalizing s base with
  | nil => rfl
  | cons b rest ih =>
    have hbase : addr ≠ base := by simpa using h 0 (by simp)
    have hrest : ∀ k < rest.length, addr ≠ base + 1 + BitVec.ofNat 16 k := by
      intro k hk
      rw [← add_ofNat_succ]
      exact h (k + 1) (Nat.succ_lt_succ hk)
    exact (ih (s.poke base b) (base + 1) hrest).trans (s.peek_poke_other b hbase)

/-- The bytes of an image no longer than the address space stand at their addresses. -/
theorem State.peek_pokeAll (s : State) (image : List Byte) (base : Word) (hlen : image.length ≤ 65536) (k : Nat)
    (hk : k < image.length) : (s.pokeAll image base).peek (base + BitVec.ofNat 16 k) = image[k] := by
  induction image generalizing s base k with
  | nil => cases hk
  | cons b rest ih =>
    rw [List.length_cons] at hlen hk
    cases k with
    | zero =>
      have hother : ∀ j < rest.length, base + BitVec.ofNat 16 0 ≠ base + 1 + BitVec.ofNat 16 j := by
        intro j hj
        bv_omega
      exact ((s.poke base b).peek_pokeAll_other rest (base + 1) hother).trans (by simp)
    | succ j =>
      rw [add_ofNat_succ]
      exact ih (s.poke base b) (base + 1) (by omega) j (by omega)

/-- Settles O48: the load writes the image by `pokeAll`, and within $0000-$FFFF its addresses do not wrap. -/
theorem imageLoad : Obligations.ImageLoad := by
  intro s image base
  refine ⟨by simp [State.load], fun t h => ?_⟩
  obtain ⟨hfits, hpoked⟩ := Option.ite_none_right_eq_some.1 h
  cases hpoked
  refine ⟨s.pokeAll_registers image base, s.peek_pokeAll image base (by omega), fun addr haddr => ?_⟩
  refine s.peek_pokeAll_other image base fun k hk heq => ?_
  have := congrArg BitVec.toNat heq
  rw [BitVec.toNat_add, BitVec.toNat_ofNat] at this
  omega

end Sys2Proof.Machine

/-! PROOF. The encoding: decoding is the inverse of encoding both ways, which bytes the lookup knows, and the step as the
execution of what the bytes at PC decode to. -/

namespace Sys2Proof

/-! ### Decoding and encoding (R71, R72, R75) -/

/-- A recognised opcode byte leaves the operand bytes of its row to decode. -/
theorem decode_of_decodeOp {cfg : Config} {b : Byte} {op : Op} (h : decodeOp cfg b = some op) (rest : List Byte) :
    decode cfg (b :: rest) = decodeOperands op rest := by
  simp only [decode, h]

/-- Settles O1: the lookup finds the row of the opcode byte, and the operand bytes build the instruction again. -/
theorem decodeOfEncodeIsInstruction : Obligations.DecodeOfEncodeIsInstruction := by
  intro cfg i rest hdistinct hwf
  calc decode cfg (encode cfg i ++ rest)
      = decodeOperands i.op (i.operands ++ rest) := decode_of_decodeOp (decodeOp_opc hdistinct hwf) _
    _ = .ok i rest := decodeOperands_operands i rest

/-- The operand bytes of what a kind builds are as many of the given bytes as its format has. -/
theorem Op.operands_build (op : Op) (b1 b2 : Byte) :
    (op.build b1 b2).operands = [b1, b2].take op.format.operandBytes := by
  cases op <;> simp [Op.build, Instr.operands, Op.format, Format.operandBytes]

/-- What the operand bytes of a kind decode to is of that kind, and has the bytes that were taken as its operands. -/
theorem decodeOperands_ok {op : Op} {bytes rest : List Byte} {i : Instr} (h : decodeOperands op bytes = .ok i rest) :
    i.op = op ∧ i.operands ++ rest = bytes := by
  unfold decodeOperands at h
  split at h
  case h_1 hlen | h_2 hlen | h_3 hlen => cases h; simp [Op.build_op, Op.operands_build, hlen]
  case h_4 => cases h

/-- What decodes begins with a recognised opcode byte, and the bytes after that decode as its operands. -/
theorem decode_ok {cfg : Config} {bytes rest : List Byte} {i : Instr} (h : decode cfg bytes = .ok i rest) :
    ∃ b tail op, bytes = b :: tail ∧ decodeOp cfg b = some op ∧ decodeOperands op tail = .ok i rest := by
  cases bytes with
  | nil => cases h
  | cons b tail =>
    cases hop : decodeOp cfg b with
    | none => simp [decode, hop] at h
    | some op => exact ⟨b, tail, op, rfl, hop, (decode_of_decodeOp hop tail).symm.trans h⟩

/-- Settles O2: the opcode byte read is that of the row found, and the operand bytes taken are the instruction's. -/
theorem encodeOfDecodeIsBytes : Obligations.EncodeOfDecodeIsBytes := by
  intro cfg bytes rest i h
  obtain ⟨b, tail, op, rfl, hop, hoperands⟩ := decode_ok h
  obtain ⟨hrecognised, hbyte⟩ := decodeOp_some hop
  obtain ⟨rfl, htail⟩ := decodeOperands_ok hoperands
  exact ⟨hrecognised, congrArg₂ List.cons hbyte htail⟩

/-- Settles O3, by evaluating the decoder on each word. -/
theorem decoderReadsSpecWords : Obligations.DecoderReadsSpecWords := by
  unfold Obligations.DecoderReadsSpecWords
  decide

/-! ### The bytes that the lookup knows (R71, R74) -/

/-- The opcode bytes of the rows that the core recognises. -/
def Config.knownOpcodes (cfg : Config) : List Byte := (Op.all.filter cfg.recognises).map cfg.opc.get

/-- A byte that is looked up to no row is the opcode byte of no recognised row. -/
theorem decodeOp_eq_none {cfg : Config} {b : Byte} : decodeOp cfg b = none ↔ b ∉ cfg.knownOpcodes := by
  simp [decodeOp, Config.knownOpcodes]

/-- Settles O4: with and without the implied rows, the known opcode bytes are the listed ones. -/
theorem onlyListedOpcodesDecode : Obligations.OnlyListedOpcodesDecode :=
  ⟨fun _ => decodeOp_eq_none, fun _ => decodeOp_eq_none⟩

end Sys2Proof

namespace Sys2Proof.Machine

/-- Settles O5: bytes in plain memory that decode are what the fetch answers, with PC past them. -/
theorem stepRunsDecodedInstruction : Obligations.StepRunsDecodedInstruction := fun _ _ _ hat hdecode hholds =>
  step_of_fetch hat (State.fetch_of_decode hdecode hholds)

end Sys2Proof.Machine

/-! PROOF. The loads and the stores: their bytes, what they do to the state, and the whole step. An instruction that does
not look at PC does the same with PC past its bytes, which turns its effect into that of the step. -/

namespace Sys2Proof.Machine

/-! ### The step of a well-formed instruction at PC -/

/-- The step runs the instruction whose bytes stand at PC, with PC past them (R70, R73). -/
theorem State.aboutToRun.step_eq {s : State} {i : Instr} (h : s.aboutToRun i) :
    step s = exec i (s.setPC (s.pc + BitVec.ofNat 16 i.op.fetchLength)) := by
  obtain ⟨hat, hdistinct, hwf, hholds⟩ := h
  have hdecode : decode s.cfg (encode s.cfg i) = .ok i [] := by
    simpa using decodeOfEncodeIsInstruction s.cfg i [] hdistinct hwf
  exact stepRunsDecodedInstruction s i _ hat hdecode hholds

/-- Where the instruction has one effect whatever PC is, and leaves PC, the step has that effect and moves PC past the
bytes. -/
theorem State.aboutToRun.step_of_exec_setPC {s t : State} {i : Instr} (h : s.aboutToRun i)
    (hexec : ∀ w, exec i (s.setPC w) = .next (t.setPC w)) :
    step s = .next { t with pc := s.pc + BitVec.ofNat 16 i.op.fetchLength } :=
  h.step_eq.trans (hexec _)

/-! ### The bus does not look at PC -/

theorem State.afterRead_setPC (s : State) (addr w : Word) :
    (s.setPC w).afterRead addr = (s.afterRead addr).setPC w := by
  by_cases hw : inWindow addr
  · rw [State.afterRead_window hw, State.afterRead_window hw]
    rfl
  · rw [State.afterRead_plain hw, State.afterRead_plain hw]

theorem State.loadAFrom_setPC (s : State) (addr w : Word) :
    (s.setPC w).loadAFrom addr = (s.loadAFrom addr).setPC w := by
  rw [State.loadAFrom, State.afterRead_setPC]
  rfl

theorem State.memWrite_setPC (s : State) (addr w : Word) (v : Byte) :
    (s.setPC w).memWrite addr v = (s.memWrite addr v).setPC w := by
  rcases s.memWrite_cases addr v with ⟨hw, hs⟩ | ⟨hv, hs⟩ | ⟨hw, hv, hs⟩ <;> rw [hs]
  · exact State.memWrite_window v hw
  · exact State.memWrite_vectors v hv
  · exact State.memWrite_plain v hw hv

/-! ### Operand bytes and effective addresses (R72) -/

/-- A word operand is encoded low byte first. -/
theorem bytes_of_append (hi lo : Byte) : [lowByte (hi ++ lo), highByte (hi ++ lo)] = [lo, hi] :=
  congrArg₂ (fun l h => [l, h]) (lowByte_joinBytes hi lo) (highByte_joinBytes hi lo)

/-- The address of absolute,X is a sum modulo 2^16. -/
theorem eaAbsX_eq_ofNat (base : Word) (x : Byte) : eaAbsX base x = BitVec.ofNat 16 (base.toNat + x.toNat) := by
  apply BitVec.eq_of_toNat_eq
  simp [eaAbsX]

/-! ### Immediate loads (R90-R92) -/

/-- Settles O10: the effect of each load is one update of the state, which PC does not enter. -/
theorem immediateLoads : Obligations.ImmediateLoads := fun imm =>
  ⟨rfl, rfl, rfl, fun s => ⟨rfl, rfl, rfl,
    fun h => h.step_of_exec_setPC (t := s.loadA imm) fun _ => rfl,
    fun h => h.step_of_exec_setPC (t := s.loadX imm) fun _ => rfl,
    fun h => h.step_of_exec_setPC (t := s.loadY imm) fun _ => rfl⟩⟩

/-! ### Loads from memory (R93-R95) -/

/-- A load from memory is one bus read, and A, Z and N set from its byte. -/
theorem State.loadAFrom_eq_afterRead (s : State) (addr : Word) :
    s.loadAFrom addr = { s.afterRead addr with a := s.readByte addr, p := setNZ s.p (s.readByte addr) } := by
  rw [s.loadAFrom_eq, s.afterRead_registers]

/-- Outside the window the byte is that of `MEM`, and the router is left alone. -/
theorem State.loadAFrom_plain {s : State} {addr : Word} (h : ¬ inWindow addr) :
    s.loadAFrom addr = { s with a := s.peek addr, p := setNZ s.p (s.peek addr) } := by
  rw [s.loadAFrom_eq_afterRead, State.afterRead_plain h, State.readByte_plain h]

/-- In the window the byte and the flags are the switch's, with one notice. -/
theorem State.loadAFrom_window {s : State} {addr : Word} (h : inWindow addr) :
    s.loadAFrom addr = { s with
      a := (switchRead s.cfg s.io addr).1, p := setNZ s.p (switchRead s.cfg s.io addr).1
      io := (switchRead s.cfg s.io addr).2, events := s.events ++ [⟨.read, addr, (switchRead s.cfg s.io addr).1⟩] } := by
  rw [s.loadAFrom_eq_afterRead, State.afterRead_window h, State.readByte_window h]
  rfl

/-- Where the instruction is a load from one address whatever PC is, the step is that load, with PC past the bytes. -/
theorem State.aboutToRun.step_of_exec_loadAFrom {s : State} {i : Instr} {ea : Word} (h : s.aboutToRun i)
    (hexec : ∀ w, exec i (s.setPC w) = .next ((s.setPC w).loadAFrom ea)) :
    step s = .next { s.loadAFrom ea with pc := s.pc + BitVec.ofNat 16 i.op.fetchLength } :=
  h.step_of_exec_setPC fun w => (hexec w).trans (congrArg _ (s.loadAFrom_setPC ea w))

/-- Settles O11: each load is `loadAFrom` its effective address, whose one bus read is plain or a switch's. -/
theorem memoryLoads : Obligations.MemoryLoads := by
  unfold Obligations.MemoryLoads
  intro loaded
  have hloaded : ∀ s ea, loaded s ea = s.loadAFrom ea := fun s ea => (s.loadAFrom_eq_afterRead ea).symm
  refine ⟨fun s ea =>
      ⟨(hloaded s ea).trans ∘ State.loadAFrom_plain, (hloaded s ea).trans ∘ State.loadAFrom_window⟩, fun zp => rfl,
    fun hi lo => ⟨congrArg (List.cons 0xAD) (bytes_of_append hi lo), congrArg (List.cons 0xBD) (bytes_of_append hi lo)⟩,
    fun s zp => ?_, fun s addr => ?_, fun s base => ?_⟩
  · simp only [← eaZp_eq_append, hloaded]
    exact ⟨rfl, eaZp_notWindow zp, fun h => h.step_of_exec_loadAFrom fun _ => rfl⟩
  · simp only [hloaded]
    exact ⟨rfl, fun h => h.step_of_exec_loadAFrom fun _ => rfl⟩
  · simp only [← eaAbsX_eq_ofNat, hloaded]
    exact ⟨rfl, fun h => h.step_of_exec_loadAFrom fun _ => rfl⟩

/-! ### Stores (R96, R97) -/

/-- STA zp stores A in plain memory. -/
theorem exec_staZp_eq (zp : Byte) (s : State) : exec (.staZp zp) s = .next (s.poke (eaZp zp) s.a) :=
  congrArg _ (State.memWrite_plain s.a (eaZp_notWindow zp) (eaZp_notVectors zp))

/-- Settles O12: a store is one `memWrite` of A, which for a zero-page address is a poke. -/
theorem stores : Obligations.Stores := by
  refine ⟨fun zp => rfl, fun hi lo => congrArg (List.cons 0x8D) (bytes_of_append hi lo), fun s zp => ?_,
    fun s addr => ⟨rfl, fun h => ?_, State.memWrite_plain s.a, State.memWrite_vectors s.a,
      fun hw => State.memWrite_window s.a hw⟩⟩
  · rw [← eaZp_eq_append]
    exact ⟨exec_staZp_eq zp s, fun h => h.step_of_exec_setPC fun w => exec_staZp_eq zp (s.setPC w)⟩
  · exact h.step_of_exec_setPC fun w => congrArg _ (s.memWrite_setPC addr w s.a)

end Sys2Proof.Machine

/-! PROOF. The compare: its bytes, its flags as facts about unsigned bytes, and the whole step. -/

namespace Sys2Proof.Machine

/-- Settles O13: the flags asked for are those of the 9-bit sum (`compareFlags_eq`), and PC does not enter them. -/
theorem compareImmediate : Obligations.CompareImmediate := by
  refine fun imm => ⟨rfl, fun s => ?_⟩
  rw [← compareFlags_eq]
  exact ⟨rfl, fun h => h.step_of_exec_setPC (t := s.setP (compareFlags s.p s.a imm)) fun _ => rfl⟩

end Sys2Proof.Machine

/-! PROOF. The branch and the jump: their bytes, where they leave PC, and the whole step. -/

namespace Sys2Proof.Machine

/-! ### Branch (R105) -/

/-- The branch target is a signed sum modulo 2^16, over whatever integer the following address stands for. -/
theorem branchTarget_ofInt (n : Int) (rel : Byte) :
    branchTarget (BitVec.ofInt 16 n) rel = BitVec.ofInt 16 (n + rel.toInt) :=
  (BitVec.ofInt_add ..).symm

/-- An address is the integer of its unsigned value, modulo 2^16. -/
theorem word_eq_ofInt_toNat (w : Word) : w = BitVec.ofInt 16 w.toNat := by
  rw [BitVec.ofInt_natCast, BitVec.ofNat_toNat, BitVec.setWidth_eq]

theorem branchTarget_eq_ofInt (pcAfter : Word) (rel : Byte) :
    branchTarget pcAfter rel = BitVec.ofInt 16 (pcAfter.toNat + rel.toInt) := by
  rw [← branchTarget_ofInt, ← word_eq_ofInt_toNat]

/-- The address after the two bytes may itself wrap: the target is still that of the sum over the integers. -/
theorem branchTarget_add_two (pc : Word) (rel : Byte) :
    branchTarget (pc + 2) rel = BitVec.ofInt 16 (pc.toNat + 2 + rel.toInt) := by
  rw [← branchTarget_ofInt, BitVec.ofInt_add, ← word_eq_ofInt_toNat]
  rfl

/-- BNE falls through with Z set. -/
theorem exec_bneRel_of_z {s : State} (hz : s.p.z = true) (rel : Byte) : exec (.bneRel rel) s = .next s :=
  congrArg _ (if_pos hz)

/-- BNE branches with Z clear. -/
theorem exec_bneRel_of_not_z {s : State} (hz : s.p.z = false) (rel : Byte) :
    exec (.bneRel rel) s = .next (s.setPC (branchTarget s.pc rel)) :=
  congrArg _ (if_neg (by simp [hz]))

/-- Settles O14: Z, which the fetch leaves alone, decides between PC past the two bytes and the branch target from
there. -/
theorem branchNotEqual : Obligations.BranchNotEqual := by
  refine fun rel => ⟨fun cfg => rfl, fun s => ⟨fun hz => ?_, fun hz => exec_bneRel_of_z hz rel, fun h => ?_⟩⟩
  · rw [exec_bneRel_of_not_z hz, branchTarget_eq_ofInt]
    rfl
  · have hstep : step s = exec (.bneRel rel) (s.setPC (s.pc + 2)) := h.step_eq
    rw [hstep, ← branchTarget_add_two]
    cases hz : s.p.z with
    | true => exact exec_bneRel_of_z (s := s.setPC (s.pc + 2)) hz rel
    | false => exact exec_bneRel_of_not_z (s := s.setPC (s.pc + 2)) hz rel

/-! ### Jump (R106) -/

/-- A well-formed jump at PC sets PC to its operand: where the fetch left PC does not matter. -/
theorem State.aboutToRun.step_jmpAbs {s : State} {addr : Word} (h : s.aboutToRun (.jmpAbs addr)) :
    step s = .next (s.setPC addr) :=
  h.step_eq

/-- Settles O15: the step is one update of PC, which for a jump to its own opcode gives PC its own value. -/
theorem jumpAbsolute : Obligations.JumpAbsolute :=
  ⟨fun hi lo => congrArg (List.cons 0x4C) (bytes_of_append hi lo),
    fun _ _ => ⟨rfl, State.aboutToRun.step_jmpAbs⟩, fun _ => State.aboutToRun.step_jmpAbs⟩

end Sys2Proof.Machine

/-! PROOF. BRK and RTI: exception entry as it is seen from outside, RTI as what undoes it, the whole steps, and that
nothing but RTI clears I. -/

namespace Sys2Proof.Machine

/-! ### Exception entry (R110, R128) -/

/-- What an exception entry through a vector makes of a state: a return address and a status byte at the three stack
locations from SP down, SP lowered by 3, I set, PC from the vector, and nothing else. -/
structure State.Entered (s : State) (vector ret : Word) (brk : Bool) (t : State) : Prop where
  registers : t = { s with
    mem := t.mem, sp := s.sp - 3, p := { s.p with i := true }
    pc := joinBytes (s.peek (vector + 1)) (s.peek vector) }
  high : t.peek (page1 s.sp) = highByte ret
  low : t.peek (page1 (s.sp - 1)) = lowByte ret
  status : t.peek (page1 (s.sp - 2)) = packP s.p brk
  frame : ∀ addr : Word, addr ∉ [page1 s.sp, page1 (s.sp - 1), page1 (s.sp - 2)] → t.peek addr = s.peek addr

/-- Entry pushes PC as it stands: the three stack locations are distinct, so each keeps its byte. -/
theorem State.entered_enterException (s : State) {vector : Word} (brk : Bool)
    (h : 0xFFFA ≤ vector.toNat) (h' : vector.toNat < 0xFFFF) :
    s.Entered vector s.pc brk (s.enterException vector brk) := by
  have h01 : stackAddr s.sp ≠ stackAddr (s.sp - 1) := mt stackAddr_inj.1 (by bv_omega)
  have h02 : stackAddr s.sp ≠ stackAddr (s.sp - 2) := mt stackAddr_inj.1 (by bv_omega)
  have h12 : stackAddr (s.sp - 1) ≠ stackAddr (s.sp - 2) := mt stackAddr_inj.1 (by bv_omega)
  rw [s.enterException_eq brk h h']
  constructor
  case registers => rfl
  all_goals simp only [page1_eq_stackAddr]
  case high => exact (State.peek_poke_other _ _ h02).trans ((State.peek_poke_other _ _ h01).trans (s.peek_poke_same ..))
  case low => exact (State.peek_poke_other _ _ h12).trans (State.peek_poke_same ..)
  case status => exact State.peek_poke_same ..
  case frame =>
    intro addr haddr
    simp only [List.mem_cons, List.not_mem_nil, or_false, not_or] at haddr
    obtain ⟨h0, h1, h2⟩ := haddr
    exact (State.peek_poke_other _ _ h2).trans ((State.peek_poke_other _ _ h1).trans (State.peek_poke_other _ _ h0))

namespace State.Entered

variable {s t : State} {vector ret : Word} {brk : Bool}

/-- Where PC was does not matter beside the return address. -/
theorem of_setPC {w : Word} (h : (s.setPC w).Entered vector ret brk t) : s.Entered vector ret brk t :=
  ⟨h.registers, h.high, h.low, h.status, h.frame⟩

theorem pc_eq (h : s.Entered vector ret brk t) : t.pc = joinBytes (s.peek (vector + 1)) (s.peek vector) :=
  congrArg State.pc h.registers

theorem cfg_eq (h : s.Entered vector ret brk t) : t.cfg = s.cfg := by rw [h.registers]

/-- With I set only an NMI can be due, and entry raises none: the handler's first instruction is executed (R130). -/
theorem atInstruction (h : s.Entered vector ret brk t) (hs : s.atInstruction) : t.atInstruction := by
  obtain ⟨hrun, hdue⟩ := hs
  rw [h.registers]
  refine ⟨hrun, ?_⟩
  unfold State.interruptDue at hdue ⊢
  split at hdue
  · next hpresent =>
    split at hdue
    · cases hdue
    · next hnmi => simp [hnmi]
  · next habsent => exact if_neg habsent

/-- RTI undoes an entry, but for the three stack locations and the break bit it pulls (R112, R131). -/
theorem exec_rti (h : s.Entered vector ret brk t) :
    exec .rti t = .next { s with mem := t.mem, pc := ret, p := { s.p with b := brk } } := by
  have hsp : t.sp = s.sp - 3 := congrArg State.sp h.registers
  have hsp1 : t.sp + 1 = s.sp - 2 := by rw [hsp]; bv_omega
  have hsp2 : t.sp + 2 = s.sp - 1 := by rw [hsp]; bv_omega
  have hsp3 : t.sp + 3 = s.sp := by rw [hsp]; bv_omega
  simp only [exec_rti_eq, hsp1, hsp2, hsp3, ← page1_eq_stackAddr, h.high, h.low, h.status, unpackP_packP,
    joinBytes_high_low]
  rw [h.registers]

end State.Entered

/-! ### BRK (R110) -/

/-- BRK returns to the byte after its signature byte, at which PC stands after the fetch. -/
theorem exec_brk_entered (s : State) : ∃ t, exec .brk s = .next t ∧ s.Entered irqVector (s.pc + 1) true t :=
  ⟨_, rfl, ((s.setPC (s.pc + 1)).entered_enterException true (by decide) (by decide)).of_setPC⟩

theorem State.aboutToRun.step_brk {s : State} (h : s.aboutToRun .brk) :
    ∃ t, step s = .next t ∧ s.Entered irqVector (s.pc + 2) true t := by
  obtain ⟨t, ht, hentered⟩ := exec_brk_entered (s.setPC (s.pc + 1))
  have hret : s.pc + 1 + 1 = s.pc + 2 := BitVec.add_assoc s.pc 1 1
  exact ⟨t, h.step_eq.trans ht, hret ▸ hentered.of_setPC⟩

/-- Settles O16: BRK enters the handler through $FFFE, from one byte further on in the whole step. -/
theorem breakEntersHandler : Obligations.BreakEntersHandler := by
  refine ⟨rfl, fun s => ?_⟩
  intro entered
  have hentered : ∀ ret t, s.Entered irqVector ret true t → entered ret t := fun _ _ h =>
    ⟨h.registers, h.high, h.low, h.status, h.frame⟩
  obtain ⟨t, ht, h⟩ := exec_brk_entered s
  refine ⟨⟨t, ht, hentered _ t h⟩, fun hat => ?_⟩
  obtain ⟨u, hu, h'⟩ := hat.step_brk
  exact ⟨u, hu, hentered _ u h'⟩

/-! ### RTI (R111, R112) -/

/-- The step of an RTI is its effect on the state before the fetch: PC comes from the stack. -/
theorem State.aboutToRun.step_rti {s : State} (h : s.aboutToRun .rti) : step s = exec .rti s := by
  rw [h.step_eq, exec_rti_eq, exec_rti_eq]
  rfl

/-- Settles O17: `exec_rti_eq`, with the stack locations written `$01:offset`. -/
theorem returnFromInterrupt : Obligations.ReturnFromInterrupt := by
  refine ⟨rfl, fun s => ?_⟩
  simp only [page1_eq_stackAddr]
  exact ⟨exec_rti_eq s, fun h => h.step_rti.trans (exec_rti_eq s)⟩

/-- Settles O19: BRK enters the handler, whose RTI, not overwritten by the three pushes, undoes the entry. -/
theorem brkThenRtiReturns : Obligations.BrkThenRtiReturns := by
  intro s hs slots h hwindow hslots hrti
  obtain ⟨t, ht, hentered⟩ := hs.step_brk
  obtain ⟨hat, hdistinct, -, -⟩ := hs
  have hpc : t.pc = h := hentered.pc_eq
  have hcfg : t.cfg = s.cfg := hentered.cfg_eq
  have hopcode : t.peek t.pc = t.cfg.opc.rti := by rw [hpc, hcfg, hentered.frame h hslots, hrti]
  have hnext : t.aboutToRun .rti :=
    ⟨hentered.atInstruction hat, hcfg ▸ hdistinct, rfl, hpc ▸ hwindow, hopcode, trivial⟩
  exact ⟨t, _, ht, hnext.step_rti.trans hentered.exec_rti, rfl, hentered.frame⟩

/-! ### The interrupt disable flag (R17, R111) -/

/-- An instruction other than RTI leaves a set I set. -/
theorem RegisterEffect.i_of_ne_rti {s t : State} {op : Op} (h : RegisterEffect s op t) (hop : op ≠ .rti)
    (hi : s.p.i = true) : t.p.i = true := by
  cases h with
  | enter => rfl
  | leave => exact absurd rfl hop
  | _ => exact hi

theorem eq_rti_of_op {i : Instr} (h : i.op = .rti) : i = .rti := by
  cases i with
  | rti => rfl
  | _ => cases h

/-- Settles O39: interrupt entry sets I, the halt and the fetch leave it, and of the instructions RTI alone can clear
it. -/
theorem onlyRtiClearsInterruptDisable : Obligations.OnlyRtiClearsInterruptDisable := by
  intro s t h hset hclear
  rcases step_cases (running_of_step h) with ⟨k, -, hs⟩ | ⟨-, -, hs⟩ | ⟨hdue, op, i, s1, -, hf, hs⟩ <;> rw [hs] at h
  · obtain ⟨mem, pc, n, -, hk⟩ := s.takeInterrupt_registers k
    rw [hk] at h
    cases h
    cases hclear
  · obtain ⟨pc, io, events, hf⟩ := s.afterFetch_registers
    rw [hf] at h
    cases h
    cases hset.symm.trans hclear
  · refine ⟨hdue, s1, ?_⟩
    obtain ⟨pc, io, events, rfl⟩ := State.fetch_registers hf
    by_cases hop : i.op = .rti
    · rw [hf, eq_rti_of_op hop]
    · cases ((registerEffect_exec h).i_of_ne_rti hop hset).symm.trans hclear

end Sys2Proof.Machine

/-! PROOF. TSX: its byte, its effect on X, Z and N, and the whole step. -/

namespace Sys2Proof.Machine

/-! ### TSX (R115) -/

/-- Settles O18: the effect is one update of X, Z and N from SP, which PC does not enter. -/
theorem transferStackPointerToX : Obligations.TransferStackPointerToX :=
  ⟨rfl, fun s => ⟨rfl, fun h => h.step_of_exec_setPC (t := s.loadX s.sp) fun _ => rfl⟩⟩

end Sys2Proof.Machine

/-! PROOF. The exceptions: the illegal-opcode halt and what becomes of RUN, which interrupt is due, interrupt entry, and
that I does not mask BRK. -/

namespace Sys2Proof.Machine

/-! ### The illegal-opcode halt (R121, R140) -/

theorem step_of_illegal {s : State} (h : s.atInstruction) (hd : decodeOp s.cfg (s.readByte s.pc) = none) :
    step s = .next { s.afterRead s.pc with pc := s.pc, run := .halted s.pc (s.readByte s.pc) } := by
  obtain ⟨hrun, hdue⟩ := h
  simp only [step, hrun, hdue, State.fetch_of_illegal hd]
  rfl

theorem stepReport_of_illegal {s : State} (h : s.atInstruction) (hd : decodeOp s.cfg (s.readByte s.pc) = none) :
    stepReport s = ⟨0, .illegalOpcode s.pc (s.readByte s.pc)⟩ := by
  obtain ⟨hrun, hdue⟩ := h
  simp only [stepReport, hrun, hdue, State.fetch_of_illegal hd]

theorem stepReport_halted {s : State} {addr : Word} {opcode : Byte} (h : s.run = .halted addr opcode) :
    stepReport s = ⟨0, .illegalOpcode addr opcode⟩ := by
  simp only [stepReport, h]

/-- Of the host's moves only a reset touches RUN (R157). -/
theorem State.run_hostMove {s t : State} {m : HostMove} (h : s.hostMove m = some t) (hm : m ≠ .reset) :
    t.run = s.run := by
  cases m with
  | load image base =>
    obtain ⟨-, hpoked⟩ := Option.ite_none_right_eq_some.1 h
    cases hpoked
    rw [State.pokeAll_registers]
  | reset => exact absurd rfl hm
  | keyEvent | driveIrq | assertNmi | observe => cases h; rfl

/-- Settles O7: the step and its report at an illegal opcode, then those of a halted machine, which only a reset
wakes. -/
theorem illegalOpcodeHalts : Obligations.IllegalOpcodeHalts :=
  ⟨fun _ h hd => ⟨step_of_illegal h hd, State.afterRead_plain, stepReport_of_illegal h hd⟩,
    fun _ _ _ h => ⟨step_halted h, stepReport_halted h, rfl, fun _ _ hmove hm =>
      (State.run_hostMove hmove hm).trans h⟩⟩

/-- Settles O8: a step that does not leave RUN running decoded an illegal opcode, and such a step halts. -/
theorem runStateMachine : Obligations.RunStateMachine := by
  refine ⟨fun s hrun => ?_, fun s t => running_of_step, fun s => rfl⟩
  obtain ⟨t, ht⟩ := exists_step_of_running hrun
  have hhalts : s.interruptDue = none ∧ decodeOp s.cfg (s.readByte s.pc) = none →
      t.run = .halted s.pc (s.readByte s.pc) := by
    rintro ⟨hdue, hd⟩
    cases ht.symm.trans (step_of_illegal ⟨hrun, hdue⟩ hd)
    rfl
  refine ⟨t, ht, ?_, hhalts⟩
  by_cases ht' : t.run = .running
  · exact .inl ht'
  · obtain ⟨hdue, hd⟩ := illegalOpcode_of_step_halts ht ht'
    exact .inr ⟨hdue, hd, hhalts ⟨hdue, hd⟩⟩

/-! ### Which interrupt is due (R124, R130) -/

theorem State.interruptDue_nmi {s : State} (hpresent : s.cfg.pHwInterrupts = true) (hnmi : s.nmiPending = true) :
    s.interruptDue = some .nmi := by
  simp only [State.interruptDue, hpresent, hnmi, if_true]

theorem State.interruptDue_no_nmi {s : State} (hpresent : s.cfg.pHwInterrupts = true) (hnmi : s.nmiPending = false) :
    s.interruptDue = if s.irq && !s.p.i then some .irq else none := by
  simp only [State.interruptDue, hpresent, hnmi, if_true, Bool.false_eq_true, if_false]

theorem State.interruptDue_absent {s : State} (h : s.cfg.pHwInterrupts = false) : s.interruptDue = none := by
  simp only [State.interruptDue, h, Bool.false_eq_true, if_false]

/-- With irq low no flag has a part in what is due, I included (R126, R129). -/
theorem State.interruptDue_setP {s : State} (h : s.irq = false) (p : Status) :
    (s.setP p).interruptDue = s.interruptDue := by
  simp only [State.interruptDue, State.setP_cfg, State.setP_nmiPending, State.setP_irq, h, Bool.false_and]

/-- Settles O45: the fault of a halted machine, and the three cases of what is due. -/
theorem interruptPriority : Obligations.InterruptPriority := fun _ =>
  ⟨fun _ _ => step_halted, State.interruptDue_nmi, State.interruptDue_no_nmi, State.interruptDue_absent⟩

/-! ### Interrupt entry (R128, R129) -/

theorem step_of_interruptDue {s : State} {k : Interrupt} (h : s.run = .running) (hdue : s.interruptDue = some k) :
    step s = .next (s.takeInterrupt k) := by
  simp only [step, h, hdue]

theorem State.entered_takeInterrupt_nmi (s : State) :
    (s.setNmiPending false).Entered nmiVector s.pc false (s.takeInterrupt .nmi) :=
  (s.setNmiPending false).entered_enterException false (by decide) (by decide)

theorem State.entered_takeInterrupt_irq (s : State) : s.Entered irqVector s.pc false (s.takeInterrupt .irq) :=
  s.entered_enterException false (by decide) (by decide)

/-- Where the nmi input is present, its assertion sets NMI_PENDING (R129). -/
theorem State.assertNmi_eq {s : State} (hpresent : s.cfg.pHwInterrupts = true) :
    s.assertNmi = s.setNmiPending true := by
  simp only [State.assertNmi, hpresent, Bool.or_true]

/-- Settles O43: the interrupt that is due is taken, which is exception entry with PC as it stands and the break bit
clear; NMI entry is that entry after NMI_PENDING is cleared. -/
theorem interruptEntry : Obligations.InterruptEntry := by
  refine ⟨fun s hpresent => ?_, fun s hrun hpresent => ?_⟩
  · rw [State.assertNmi_eq hpresent]
    exact ⟨rfl, State.assertNmi_eq hpresent⟩
  · intro entered
    have hentered : ∀ {v0 v1 t}, v0 + 1 = v1 → (s.setNmiPending false).Entered v0 s.pc false t → entered v0 v1 t := by
      rintro v0 _ t rfl h
      exact ⟨h.registers, h.high, h.low, h.status, h.frame⟩
    refine ⟨fun hnmi => ?_, fun hnmi hirq hi => ?_⟩
    · have hdue := State.interruptDue_nmi hpresent hnmi
      exact ⟨_, step_of_interruptDue hrun hdue, hentered (by decide) s.entered_takeInterrupt_nmi⟩
    · have hdue : s.interruptDue = some .irq := by simp [State.interruptDue_no_nmi hpresent hnmi, hirq, hi]
      have hsame : s.setNmiPending false = s := by rw [← hnmi]; rfl
      exact ⟨_, step_of_interruptDue hrun hdue,
        hentered (by decide) (hsame.symm ▸ s.entered_takeInterrupt_irq)⟩

/-! ### BRK and the interrupt disable flag (R126) -/

/-- An entry looks at I only to push it: from states that differ in I alone it leads to states that differ at most in
the three bytes pushed. -/
theorem State.Entered.same_of_i {s t t' : State} {vector ret : Word} {brk b : Bool} (h : s.Entered vector ret brk t)
    (h' : (s.setP { s.p with i := b }).Entered vector ret brk t') :
    t' = { t with mem := t'.mem } ∧
      ∀ addr : Word, addr ∉ [page1 s.sp, page1 (s.sp - 1), page1 (s.sp - 2)] → t'.peek addr = t.peek addr := by
  refine ⟨?_, fun addr haddr => (h'.frame addr haddr).trans (h.frame addr haddr).symm⟩
  rw [h.registers]
  exact h'.registers

/-- Whether a BRK at PC is about to run depends on the flags only through the interrupt that may come first. -/
theorem State.aboutToRun.setP_brk {s : State} (h : s.aboutToRun .brk) {p : Status}
    (hdue : (s.setP p).interruptDue = none) : (s.setP p).aboutToRun .brk := by
  obtain ⟨⟨hrun, -⟩, hdistinct, hwf, hholds⟩ := h
  exact ⟨⟨hrun, hdue⟩, hdistinct, hwf, hholds⟩

/-- Settles O44: the BRK at PC enters its handler from both states. -/
theorem brkIsNotMaskable : Obligations.BrkIsNotMaskable := by
  refine fun s b => ⟨fun hirq => State.interruptDue_setP hirq _, fun hbrk hdue => ?_⟩
  obtain ⟨t, ht, h⟩ := hbrk.step_brk
  obtain ⟨t', ht', h'⟩ := (hbrk.setP_brk hdue).step_brk
  obtain ⟨hsame, hframe⟩ := h.same_of_i h'
  have hsp : t.sp = s.sp - 3 := congrArg State.sp h.registers
  have hi : t.p.i = true := congrArg (·.p.i) h.registers
  have hpc : t.pc = s.readWord irqVector := by rw [h.pc_eq, State.readWord_plain (by decide) (by decide)]
  refine ⟨t, t', ht, ht', hsp, hi, hpc, hsame, ?_⟩
  simpa only [storeAddrs, page1_eq_stackAddr] using hframe

end Sys2Proof.Machine

/-! PROOF. Reset and the host's other moves, each as one update of the state; the report of a step and its cycle count;
and the trap state, whose step is the identity. -/

namespace Sys2Proof.Machine

/-! ### The host's moves (R150, R157) -/

/-- Settles O46: the state after a reset, read off field by field; the vector is read without the router, high byte at
$FFFD. -/
theorem resetSequence : Obligations.ResetSequence := fun _ => rfl

/-- Where the irq input is present, the line takes the level the host drives (R124). -/
theorem State.driveIrq_eq {s : State} (hpresent : s.cfg.pHwInterrupts = true) (level : Bool) :
    s.driveIrq level = { s with irq := level } := by
  simp only [State.driveIrq, hpresent, Bool.true_and]

/-- Where the irq input is absent, the line is tied low (R124). -/
theorem State.driveIrq_absent {s : State} (habsent : s.cfg.pHwInterrupts = false) (level : Bool) :
    s.driveIrq level = { s with irq := false } := by
  simp only [State.driveIrq, habsent, Bool.false_and]

/-- Where the nmi input is absent, its assertion does nothing (R124). -/
theorem State.assertNmi_absent {s : State} (habsent : s.cfg.pHwInterrupts = false) : s.assertNmi = s := by
  simp only [State.assertNmi, habsent, Bool.or_false]
  rfl

/-- Settles O49: each move is one update of the state, that of an interrupt input by whether the input is present. -/
theorem hostInputs : Obligations.HostInputs := fun _ =>
  ⟨rfl, rfl,
    fun hpresent =>
      ⟨congrArg some (State.assertNmi_eq hpresent), fun level => congrArg some (State.driveIrq_eq hpresent level)⟩,
    fun habsent =>
      ⟨congrArg some (State.assertNmi_absent habsent),
        fun level => congrArg some (State.driveIrq_absent habsent level)⟩⟩

/-! ### The invariant across the host's moves -/

/-- An image load keeps `MEM` canonical (R64). -/
theorem State.pokeAll_mem_wf {s : State} (h : s.mem.wf) (image : List Byte) (base : Word) :
    (s.pokeAll image base).mem.wf := by
  induction image generalizing s base with
  | nil => exact h
  | cons b rest ih => exact ih (s := s.poke base b) (Memory.wf_write h base b) (base + 1)

namespace State.Inv

variable {s : State}

theorem pokeAll (h : s.Inv) (image : List Byte) (base : Word) : (s.pokeAll image base).Inv := by
  rw [State.pokeAll_registers]
  exact { h with memCanonical := State.pokeAll_mem_wf h.memCanonical image base }

/-- A reset takes the router's flags from RST_IO, which is canonical, and leaves Halted. -/
theorem hostReset (h : s.Inv) : s.hostReset.Inv where
  memCanonical := h.memCanonical
  extCanonical := h.rstCanonical
  rstCanonical := h.rstCanonical
  inputsTied habsent := ⟨rfl, (h.inputsTied habsent).2⟩
  haltedAtOpcode _ _ hhalt := by cases hhalt

theorem driveIrq (h : s.Inv) (level : Bool) : (s.driveIrq level).Inv :=
  { h with inputsTied := fun habsent =>
      ⟨(h.inputsTied habsent).1, congrArg State.irq (State.driveIrq_absent habsent level)⟩ }

theorem assertNmi (h : s.Inv) : s.assertNmi.Inv := by
  refine { h with inputsTied := fun habsent => ?_ }
  rw [State.assertNmi_absent (s := s) habsent]
  exact h.inputsTied habsent

end State.Inv

/-- Settles O53: a load keeps `MEM` canonical, a reset starts from canonical flags, and an absent interrupt input stays
inactive. -/
theorem hostMovesKeepInvariant : Obligations.HostMovesKeepInvariant := by
  intro s t m hinv h
  cases m with
  | load image base =>
    obtain ⟨-, hpoked⟩ := Option.ite_none_right_eq_some.1 h
    cases hpoked
    exact hinv.pokeAll image base
  | reset => cases h; exact hinv.hostReset
  | keyEvent => cases h; exact { hinv with }
  | driveIrq level => cases h; exact hinv.driveIrq level
  | assertNmi => cases h; exact hinv.assertNmi
  | observe => cases h; exact hinv

/-! ### The report of a step (R70) -/

theorem stepReport_of_interruptDue {s : State} {k : Interrupt} (h : s.run = .running) (hdue : s.interruptDue = some k) :
    stepReport s = ⟨s.cfg.cycles.interrupt, .normal⟩ := by
  simp only [stepReport, h, hdue]

theorem stepReport_of_fetch {s s1 : State} {i : Instr} (h : s.atInstruction) (hf : s.fetch = .instr i s1) :
    stepReport s = ⟨instrCycles i s1, .normal⟩ := by
  obtain ⟨hrun, hdue⟩ := h
  simp only [stepReport, hrun, hdue, hf]

/-- The step of an instruction at PC reports its cycles in the state after the fetch, and Normal. -/
theorem State.aboutToRun.stepReport_eq {s : State} {i : Instr} (h : s.aboutToRun i) :
    stepReport s = ⟨instrCycles i (s.setPC (s.pc + BitVec.ofNat 16 i.op.fetchLength)), .normal⟩ := by
  obtain ⟨hat, hdistinct, hwf, hholds⟩ := h
  have hdecode : decode s.cfg (encode s.cfg i) = .ok i [] := by
    simpa using decodeOfEncodeIsInstruction s.cfg i [] hdistinct hwf
  exact stepReport_of_fetch hat (State.fetch_of_decode hdecode hholds)

/-! ### The cycle counts (R160) -/

/-- The row of an instruction, with CYCLES at the standard table. -/
theorem instrCycles_standard {s : State} (h : s.cfg.cycles = standardCycles) (i : Instr) :
    instrCycles i s = costAt (standardCycles.perOp.get i.op) (branchTaken i s) (pageCrossed i s) := by
  rw [instrCycles, h]

/-- Absolute,X costs one more where the index addition crosses a page. -/
theorem instrCycles_ldaAbsX {s : State} (h : s.cfg.cycles = standardCycles) (base : Word) :
    instrCycles (.ldaAbsX base) s = if 255 < (lowByte base).toNat + s.x.toNat then 5 else 4 := by
  rw [instrCycles_standard h]
  simp only [pageCrossed, indexCrosses]
  split
  next hcross => rw [decide_eq_true hcross]; rfl
  next hstay => rw [decide_eq_false hstay]; rfl

/-- A branch costs 2 untaken, 3 within the page and 4 to another page. -/
theorem instrCycles_bneRel {s : State} (h : s.cfg.cycles = standardCycles) (rel : Byte) :
    instrCycles (.bneRel rel) s =
      if s.p.z then 2 else if highByte (branchTarget s.pc rel) = highByte s.pc then 3 else 4 := by
  rw [instrCycles_standard h]
  simp only [branchTaken, pageCrossed, otherPage]
  cases s.p.z with
  | true => rfl
  | false =>
    by_cases hpage : highByte (branchTarget s.pc rel) = highByte s.pc
    · rw [if_pos hpage, decide_eq_false (not_not_intro hpage)]
      rfl
    · rw [if_neg hpage, decide_eq_true hpage]
      rfl

/-- Settles O50: the fixed rows by `instrCycles_standard`, the two that depend on a page, and the reports of an interrupt
entry and of an instruction. -/
theorem cycleCounts : Obligations.CycleCounts := by
  intro s h
  have hfixed := instrCycles_standard h
  refine ⟨hfixed _, fun v => ⟨hfixed _, hfixed _, hfixed _, hfixed _, hfixed _, hfixed _⟩,
    fun w => ⟨hfixed _, hfixed _, hfixed _, instrCycles_ldaAbsX h w⟩, instrCycles_bneRel h, hfixed _, hfixed _,
    fun hrun hdue => ?_, fun i => State.aboutToRun.stepReport_eq⟩
  obtain ⟨k, hk⟩ := Option.ne_none_iff_exists'.1 hdue
  rw [stepReport_of_interruptDue hrun hk, h]
  rfl

/-! ### The trap state (R158) -/

/-- A trap state is about to jump to its own address. -/
theorem State.trapped.aboutToRun {s : State} (h : s.trapped) : s.aboutToRun (.jmpAbs s.pc) := by
  obtain ⟨hat, hdistinct, hholds⟩ := h
  exact ⟨hat, hdistinct, rfl, hholds⟩

/-- A run stays in a state that is its own next state. -/
theorem run_of_step_self {M : Host.Core} {s : M.State} (h : M.step s = .next s) (k : Nat) : M.run k s = .next s := by
  induction k with
  | zero => rfl
  | succ k ih =>
    simp only [Host.Core.run, h]
    exact ih

/-- Settles O9: the jump gives PC its own value, and a run stays in a state whose step is the identity. -/
theorem trapStateIsFixed : Obligations.TrapStateIsFixed := by
  intro s h
  have hjump := h.aboutToRun
  have hstep : step s = .next s := hjump.step_jmpAbs
  exact ⟨hstep, congrArg StepReport.status hjump.stepReport_eq, run_of_step_self (M := core) hstep⟩

end Sys2Proof.Machine
